-- ==== Sys2Proof/Word.lean ====
section
/-! DEFINITION. The word types of the dinky raster core: every register and every pixel is one 32-bit
word (spec rules R8, R21, R50); bytes exist only as the lanes of a word on the host bus (R55). -/

namespace Sys2Proof

/-- A 32-bit word: a register's contents, a command word, a pixel word, a binary32 pattern (R8, R86, R87). -/
abbrev Word := BitVec 32

/-- One byte lane of a word (R55), and one channel of a pixel (R7, R86). -/
abbrev Byte := BitVec 8

end Sys2Proof
end

