-- ==== Sys2Proof/Config.lean ====
section
/-! DEFINITION. The implementation parameters of R6 and the free values: what the spec calls
unspecified is an opaque constant here, so that nothing can be proved about which value it is. -/

namespace Sys2Proof

/-- `VTX_ROUND` (R6): the rounding of `16·x` to an integer in vertex conversion. -/
inductive VtxRound where
  /-- Round half to even: the value the spec decides (R6, R144, conflict C7). -/
  | halfEven
  /-- Round half away from zero: the alternative the spec names. -/
  | halfAway
deriving DecidableEq, Repr

/-- `NUMERICS` (R6, R110, U11) by name: which record of float primitives the machine computes with. The
records themselves are functions, so a state holds only the name; `Machine.numericsOf` gives the record. -/
inductive NumericsId where
  /-- IEEE 754 binary32, round to nearest even, no fused operation, subnormals kept: the default the spec
  decides (R6, R110 to R113). -/
  | binary32
  /-- Any other record, numbered `k`: its primitives are free functions (log entry 13). -/
  | other (k : Nat)
deriving DecidableEq, Repr

/-- The parameters of R6 that a machine carries, as plain data. They are fixed for a machine: no step changes
them. -/
structure Params where
  /-- `DM_PIXELS`: pixel words in destination memory. -/
  dmPixels : Nat
  /-- `TM_PIXELS`: pixel words in texture memory. -/
  tmPixels : Nat
  /-- `REG_BASE`: bus byte address of the register aperture. -/
  regBase : Nat
  /-- `DM_BASE`: bus byte address of the DM aperture. -/
  dmBase : Nat
  /-- `TM_BASE`: bus byte address of the TM aperture. -/
  tmBase : Nat
  /-- `VTX_ROUND`. -/
  vtxRound : VtxRound
  /-- `NAN_INDEX`: the texel index of a NaN texture coordinate. -/
  nanIndex : Nat
  /-- `NUMERICS`: the record of float primitives, by name. -/
  numerics : NumericsId
deriving DecidableEq, Repr

namespace Config

/-- The values R6 gives: `DM_PIXELS` and `TM_PIXELS` at their default 2^22, `VTX_ROUND` half to even,
`NAN_INDEX` 0, `NUMERICS` binary32. The three base addresses are OPEN in R6. DESIGN CHOICE (log entry 2,
unsafe): 0, 0x01000000 and 0x02000000, multiples of 4 that keep the apertures disjoint. -/
def params : Params :=
  { dmPixels := 4194304
    tmPixels := 4194304
    regBase := 0
    dmBase := 0x01000000
    tmBase := 0x02000000
    vtxRound := .halfEven
    nanIndex := 0
    numerics := .binary32 }

/-- `MAX_DIM` (R6): the largest legal width or height. -/
def maxDim : Nat := 65535

/-! ### The primitives of a `NUMERICS` record other than binary32

R6, U11 and decision D9 let the arithmetic be swapped and give no other record. So the eight primitives of
record number `k` are free functions of their operands' patterns alone (R110). DESIGN CHOICE (log entry 13,
safe). -/

/-- `fadd` of record `k`. -/
opaque otherFadd (k : Nat) (a b : Word) : Word

/-- `fsub` of record `k`. -/
opaque otherFsub (k : Nat) (a b : Word) : Word

/-- `fmul` of record `k`. -/
opaque otherFmul (k : Nat) (a b : Word) : Word

/-- `fdiv` of record `k`. -/
opaque otherFdiv (k : Nat) (a b : Word) : Word

/-- `fneg` of record `k`. -/
opaque otherFneg (k : Nat) (a : Word) : Word

/-- `i2f` of record `k`. -/
opaque otherI2f (k n : Nat) : Word

/-- `feq0` of record `k`. -/
opaque otherFeq0 (k : Nat) (a : Word) : Bool

/-- `ffloor` of record `k`. -/
opaque otherFfloor (k : Nat) (a : Word) : Int

/-! ### Other free values -/

/-- The byte that a blended channel above 255 stores: unspecified (R105, U1), so a free value, a fresh
one for every draw (`serial`), pixel (its DM index) and channel (0 to 3 for a, r, g, b). DESIGN CHOICE
(log entry 5, safe). -/
opaque overflowByte (serial pixel channel : Nat) : Byte

/-- The bits from which the NaN that `SET_CONTEXT` stores in `XF` entry `k` is made: which NaN is
unspecified (R29, U4). A fresh value for every `SET_CONTEXT` (`serial`). DESIGN CHOICE
(log entry 6, safe). -/
opaque nanBits (serial k : Nat) : Word

/-- The byte at offset `off` of the DM aperture that nothing has written since power-on number
`powerOns`: unspecified (R45, U6). DESIGN CHOICE (log entry 4, safe). -/
opaque dmPowerOnByte (powerOns off : Nat) : Byte

/-- The same for TM (R45, U6). DESIGN CHOICE (log entry 4, safe). -/
opaque tmPowerOnByte (powerOns off : Nat) : Byte

end Config

end Sys2Proof
end

