-- ==== Sys2Proof/Syntax.lean ====
section
/-! DEFINITION. What the host can say to the dinky raster core (DRC): the four commands of the opcode
table (R82), the registers by name (R21, R73), the two pixel memories (R50), and the host's bus
transactions (R70). -/

namespace Sys2Proof

/-- The commands, one per row of spec/opcode_table.json (R82). A command has no operand field (R80):
every operand is a register or a pixel memory (R85). -/
inductive Instr where
  /-- `NOP`, word 0x00000000 (R170). -/
  | nop
  /-- `SETCTX`, word 0x00000001 (R116). -/
  | setctx
  /-- `DRAWTRI`, word 0x00000002 (R140). -/
  | drawtri
  /-- `RESET`, word 0x0000000F (R171). -/
  | reset
deriving DecidableEq, Repr

/-- The two pixel memories, disjoint arrays of pixel words (R50, R53). -/
inductive Space where
  /-- `DM`, the destination pixel memory (R39). -/
  | dm
  /-- `TM`, the texture pixel memory (R40). -/
  | tm
deriving DecidableEq, Repr

/-- The registers of R21 by name. `v k` is the k-th of `V1X V1Y V2X V2Y V3X V3Y`; `ctm k`, `loc k` and
`xf k` are `CTMk`, `LOCk` and `XFk`. -/
inductive Reg where
  | cmd
  | status
  | errinfo
  | fbW
  | fbH
  | shader
  | color
  | texW
  | texH
  | v (k : Fin 6)
  | ctm (k : Fin 6)
  | loc (k : Fin 6)
  | xf (k : Fin 6)
deriving DecidableEq, Repr

/-- The access classes of R21: host reads back what was written; host writes are ignored; host reads
give 0. -/
inductive Access where
  | rw
  | ro
  | wo
deriving DecidableEq, Repr

/-- What an accepted bus address names (R70, R71): a byte offset of the register aperture, or a pixel
index of one of the memories. -/
inductive Target where
  | reg (off : Nat)
  | mem (sp : Space) (i : Nat)
deriving DecidableEq, Repr

/-- What reaches the DRC from outside: the host's bus transactions, each with its byte address and its
width in bits (R56, R70), and power-on reset, whose signalling the spec leaves outside (R220). -/
inductive HostEvent where
  /-- A bus write of `data`. -/
  | write (addr width : Nat) (data : Word)
  /-- A bus read. -/
  | read (addr width : Nat)
  /-- Power-on reset (R220). -/
  | powerOn
deriving DecidableEq, Repr

/-- What the host gets back from one bus transaction (R179): nothing but completion for a write, the
word for a read, a bus error for a refused transaction (R56, R178). -/
inductive Response where
  | done
  | data (w : Word)
  | busError
deriving DecidableEq, Repr

end Sys2Proof
end

