-- ==== Sys2Proof/Decode.lean ====
section
/-! DEFINITION. The decoders and encoders: command words (R80 to R84), register offsets (R73, R74) and
bus addresses (R56, R71). -/

namespace Sys2Proof

/-! ### Command words -/

/-- Why a word is no command. Both raise `E_CMD` with the word (R81, R83). -/
inductive DecodeError where
  /-- A non-zero bit in the reserved field `rsv`, bits 31:8 (R80). -/
  | reservedBits (c : Word)
  /-- `rsv` is zero and `op` is none of the four of R82. -/
  | unknownOp (c : Word)
deriving DecidableEq, Repr

/-- Field `op`, bits 7:0 of format C (R80). -/
def opField (c : Word) : BitVec 8 := c.extractLsb' 0 8

/-- Field `rsv`, bits 31:8 of format C (R80). -/
def rsvField (c : Word) : BitVec 24 := c.extractLsb' 8 24

/-- The decoder of R81 and R82, total on all 2^32 words. -/
def decode (c : Word) : Except DecodeError Instr :=
  if rsvField c ≠ 0 then .error (.reservedBits c)
  else if opField c = 0x00 then .ok .nop
  else if opField c = 0x01 then .ok .setctx
  else if opField c = 0x02 then .ok .drawtri
  else if opField c = 0x0F then .ok .reset
  else .error (.unknownOp c)

/-- The command word of R82. -/
def encode : Instr → Word
  | .nop => 0x00000000
  | .setctx => 0x00000001
  | .drawtri => 0x00000002
  | .reset => 0x0000000F

/-- The instruction the decoder reads from the low `nbits` bits of `w`; a command is one 32-bit word
(R84), so the bits above are zero. -/
def decodeTableWord (nbits w : Nat) : Option Instr :=
  match decode (BitVec.ofNat 32 (w % 2 ^ nbits)) with
  | .ok i => some i
  | .error _ => none

/-! ### Register offsets -/

/-- The register offsets of R73, in bytes from `REG_BASE`. -/
def Reg.offset : Reg → Nat
  | .cmd => 0x000
  | .status => 0x004
  | .errinfo => 0x008
  | .fbW => 0x010
  | .fbH => 0x014
  | .shader => 0x018
  | .color => 0x01C
  | .texW => 0x020
  | .texH => 0x024
  | .v k => 0x040 + 4 * k.val
  | .ctm k => 0x060 + 4 * k.val
  | .loc k => 0x080 + 4 * k.val
  | .xf k => 0x0A0 + 4 * k.val

/-- Every register of R21, in the order of R73. -/
def Reg.all : List Reg :=
  [.cmd, .status, .errinfo, .fbW, .fbH, .shader, .color, .texW, .texH] ++
  [.v 0, .v 1, .v 2, .v 3, .v 4, .v 5] ++
  [.ctm 0, .ctm 1, .ctm 2, .ctm 3, .ctm 4, .ctm 5] ++
  [.loc 0, .loc 1, .loc 2, .loc 3, .loc 4, .loc 5] ++
  [.xf 0, .xf 1, .xf 2, .xf 3, .xf 4, .xf 5]

/-- The register at a byte offset; none for the reserved offsets of R74. -/
def Reg.ofOffset (off : Nat) : Option Reg :=
  Reg.all.find? (fun r => r.offset == off)

/-- The access class of each register (R21). -/
def Reg.access : Reg → Access
  | .cmd => .wo
  | .status => .ro
  | .errinfo => .ro
  | .xf _ => .ro
  | .fbW => .rw
  | .fbH => .rw
  | .shader => .rw
  | .color => .rw
  | .texW => .rw
  | .texH => .rw
  | .v _ => .rw
  | .ctm _ => .rw
  | .loc _ => .rw

/-! ### Bus addresses -/

/-- What a bus access of `width` bits at byte address `addr` names; none when R56 refuses it: another
width, another alignment, or outside the three apertures of R71. -/
def locate (p : Params) (addr width : Nat) : Option Target :=
  if width ≠ 32 ∨ addr % 4 ≠ 0 then none
  else if p.regBase ≤ addr ∧ addr < p.regBase + 256 then some (.reg (addr - p.regBase))
  else if p.dmBase ≤ addr ∧ addr < p.dmBase + 4 * p.dmPixels then
    some (.mem .dm ((addr - p.dmBase) / 4))
  else if p.tmBase ≤ addr ∧ addr < p.tmBase + 4 * p.tmPixels then
    some (.mem .tm ((addr - p.tmBase) / 4))
  else none

/-- The bus byte address of a target (R71). -/
def busAddress (p : Params) : Target → Nat
  | .reg off => p.regBase + off
  | .mem .dm i => p.dmBase + 4 * i
  | .mem .tm i => p.tmBase + 4 * i

/-- The bus write that issues a command (R35, R91): its word, to `CMD` at offset 0 of the register
aperture. -/
def commandWrite (p : Params) (i : Instr) : HostEvent :=
  .write (busAddress p (.reg 0)) 32 (encode i)

end Sys2Proof
end

