-- ==== Sys2Proof/Machine/State.lean ====
section
/-! DEFINITION. The state of the dinky raster core as plain data: every register of R21, the two pixel
memories (R20, R39, R40), and the model's own fields (the parameters, the host's events still to come,
what the host got back, and two counters that name free values). -/

namespace Sys2Proof.Machine

/-- Why a step can stop with a fault: never. The spec makes every error of the DRC a state it goes on
from (R204, R205), an access outside the apertures a bus error that changes nothing (R56), and rules out
a memory fault inside a command (R58). So the type has no constructor. -/
inductive Fault where
deriving DecidableEq, Repr

/-- Why a step can be refused. -/
inductive Refusal where
  /-- Raised by an arm of `exec` whose instruction has no meaning yet: no arm of this model does. Safe:
  the model stops where the hardware goes on. -/
  | notModelled (mnemonic : String)
deriving DecidableEq, Repr

/-- The six binary32 patterns of a matrix register bank, `[a, b, c, d, e, f]` in the order of R26:
entry 0 is `a` and entry 5 is `f`. -/
structure Affine where
  a : Word
  b : Word
  c : Word
  d : Word
  e : Word
  f : Word
deriving DecidableEq, Repr

/-- The six vertex registers `V1X V1Y V2X V2Y V3X V3Y` (R22). -/
structure Vertices where
  x1 : Word
  y1 : Word
  x2 : Word
  y2 : Word
  x3 : Word
  y3 : Word
deriving DecidableEq, Repr

/-- A pixel memory as the bytes that have been written since power-on: pairs of a byte offset in the
memory's aperture (pixel `i` is the bytes `4·i … 4·i+3`, R71) and the byte there (lanes little-endian,
R55). An offset that is not listed has not been written (R45). DESIGN CHOICE (log entry 8, safe). -/
abbrev Memory := List Host.Cell

/-- The machine's state. -/
structure State where
  /-- The parameters of R6 (the model's own field: R13 says they are no state, and no step changes them).
  DESIGN CHOICE (log entry 7, unsafe). -/
  params : Params
  /-- `STATUS.CTX_OK`, bit 0 of `STATUS` (R31, R32). -/
  ctxOk : Bool
  /-- `STATUS.ERR`, bits 7:4 of `STATUS` (R31, R33). The other bits of `STATUS` are hard-wired to 0 (R31). -/
  err : BitVec 4
  /-- `ERRINFO` (R34). -/
  errinfo : Word
  /-- `FB_W` (R36). -/
  fbW : Word
  /-- `FB_H` (R36). -/
  fbH : Word
  /-- `SHADER` (R37). -/
  shader : Word
  /-- `COLOR` (R23). -/
  color : Word
  /-- `TEX_W` (R38). -/
  texW : Word
  /-- `TEX_H` (R38). -/
  texH : Word
  /-- `V1X … V3Y` (R22). -/
  vtx : Vertices
  /-- `CTM0 … CTM5` (R26). -/
  ctm : Affine
  /-- `LOC0 … LOC5` (R27). -/
  loc : Affine
  /-- `XF0 … XF5` (R28). -/
  xf : Affine
  /-- `DM` (R39). -/
  dm : Memory
  /-- `TM` (R40). -/
  tm : Memory
  /-- The model's own: how many power-on resets came after the first; it names the unspecified contents
  of memory (R45). DESIGN CHOICE (log entry 12, safe). -/
  powerOns : Nat
  /-- The model's own: how many times a command has drawn free values; it keeps each draw fresh (R29,
  R105). DESIGN CHOICE (log entry 12, safe). -/
  freeCount : Nat
  /-- The model's own: the host's events still to come, the next one first (R62).
  DESIGN CHOICE (log entry 1, unsafe). -/
  pending : List HostEvent
  /-- The model's own: what the host got back, one entry per bus transaction, the latest first (R180).
  DESIGN CHOICE (log entry 10, safe). -/
  responses : List Response
deriving DecidableEq, Repr

/-- The identity matrix in binary32: `[1, 0, 0, 0, 1, 0]` (R21, R44). -/
def Affine.identity : Affine := ⟨0x3F800000, 0, 0, 0, 0x3F800000, 0⟩

/-- Six zero words: the reset value of `XF0 … XF5` (R21). -/
def Affine.zero : Affine := ⟨0, 0, 0, 0, 0, 0⟩

/-- Six zero words (+0.0): the reset value of the vertex registers (R21). -/
def Vertices.zero : Vertices := ⟨0, 0, 0, 0, 0, 0⟩

/-- The machine right after power-on reset (R44, R220): every register at the value R21 gives, both
memories with nothing written (R45), and no event pending (R46). -/
def State.reset : State :=
  { params := Config.params
    ctxOk := false
    err := 0
    errinfo := 0
    fbW := 0
    fbH := 0
    shader := 0
    color := 0
    texW := 0
    texH := 0
    vtx := Vertices.zero
    ctm := Affine.identity
    loc := Affine.identity
    xf := Affine.zero
    dm := []
    tm := []
    powerOns := 0
    freeCount := 0
    pending := []
    responses := [] }

end Sys2Proof.Machine
end

