-- ==== Sys2Proof/Machine/Flags.lean ====
section
/-! DEFINITION. The `STATUS` register and its fields (R31 to R33), and the error codes (R33, R201 to
R203). -/

namespace Sys2Proof.Machine

/-- The errors a command can raise (R200). -/
inductive ErrCode where
  /-- `E_CMD`: illegal command word (R201). -/
  | cmd
  /-- `E_CFG`: unusable configuration (R202). -/
  | cfg
  /-- `E_VTX`: a vertex coordinate that cannot be converted (R203). -/
  | vtx
deriving DecidableEq, Repr

/-- The code that `STATUS.ERR` holds for an error (R33). -/
def errField : ErrCode → BitVec 4
  | .cmd => 1
  | .cfg => 2
  | .vtx => 3

/-- The `STATUS` word (R31): `CTX_OK` in bit 0, `ERR` in bits 7:4, every other bit 0. -/
def statusWord (s : State) : Word :=
  (0 : BitVec 24) ++ s.err ++ (0 : BitVec 3) ++ BitVec.ofBool s.ctxOk

/-- The fault state: `STATUS.ERR ≠ 0` (R15, R205). -/
def inFault (s : State) : Bool := s.err != 0

/-- Write `STATUS.CTX_OK` (R32). -/
def setCtxOk (b : Bool) (s : State) : State := { s with ctxOk := b }

end Sys2Proof.Machine
end

