-- ==== Sys2Proof/Machine/Ops.lean ====
section
/-! DEFINITION. The named operations over memory and registers (R10), raising an error (R204), leaving
the fault state by reset (R206, R220, R221), and what the host gets back (R179). -/

namespace Sys2Proof.Machine

/-! ### Bytes of a memory -/

/-- The byte written at an offset, if any. -/
def byteAt? : Memory → Nat → Option Byte
  | [], _ => none
  | (k, v) :: rest, a => if k = a then some v else byteAt? rest a

/-- Write one byte, keeping the list strictly rising by offset. -/
def writeByte : Memory → Nat → Byte → Memory
  | [], a, b => [(a, b)]
  | (k, v) :: rest, a, b =>
    if a < k then (a, b) :: (k, v) :: rest
    else if k = a then (a, b) :: rest
    else (k, v) :: writeByte rest a b

/-- Every offset of the list is above `a`, and the list is strictly rising. -/
def risingFrom : Option Nat → Memory → Bool
  | _, [] => true
  | none, (k, _) :: rest => risingFrom (some k) rest
  | some a, (k, _) :: rest => decide (a < k) && risingFrom (some k) rest

/-- The canonical form of a memory: strictly rising offsets. An unlisted offset reads as no written
byte, which no entry equals, so equal memories are equal lists. -/
def Memory.wf (m : Memory) : Bool := risingFrom none m

/-- Every listed offset lies inside an aperture of `4·pixels` bytes (R71). -/
def Memory.below (pixels : Nat) (m : Memory) : Bool := m.all (fun c => decide (c.1 < 4 * pixels))

/-! ### Pixel words -/

/-- Write a pixel word at pixel index `i`: bits 7:0 at the lowest of its four bytes (R55, R57, R71). -/
def writeWord (m : Memory) (i : Nat) (w : Word) : Memory :=
  writeByte (writeByte (writeByte (writeByte m
    (4 * i) (w.extractLsb' 0 8)) (4 * i + 1) (w.extractLsb' 8 8))
    (4 * i + 2) (w.extractLsb' 16 8)) (4 * i + 3) (w.extractLsb' 24 8)

/-- A memory of the state. -/
def memOf (s : State) : Space → Memory
  | .dm => s.dm
  | .tm => s.tm

/-- The size of a memory in pixel words (R39, R40). -/
def pixelsOf (p : Params) : Space → Nat
  | .dm => p.dmPixels
  | .tm => p.tmPixels

/-- What a byte nothing has written since power-on reads as: a free value, fixed for each byte and
power-on (R45, R222, U6). -/
def powerOnByte (s : State) : Space → Nat → Byte
  | .dm, a => Config.dmPowerOnByte s.powerOns a
  | .tm, a => Config.tmPowerOnByte s.powerOns a

/-- The byte at offset `a` of a memory's aperture: the latest one written (R62), else the power-on one. -/
def readByte (s : State) (sp : Space) (a : Nat) : Byte :=
  (byteAt? (memOf s sp) a).getD (powerOnByte s sp a)

/-- The pixel word at index `i` (R50, R55). -/
def readWord (s : State) (sp : Space) (i : Nat) : Word :=
  readByte s sp (4 * i + 3) ++ readByte s sp (4 * i + 2) ++
    readByte s sp (4 * i + 1) ++ readByte s sp (4 * i)

/-- `MemRead(sp, i, n)`: the `n` pixel words from index `i` on (R10). -/
def memRead (s : State) (sp : Space) (i : Nat) : Nat → List Word
  | 0 => []
  | n + 1 => readWord s sp i :: memRead s sp (i + 1) n

/-- `MemWrite(sp, i, 1, [w])`: store one pixel word (R10). -/
def memWrite (s : State) (sp : Space) (i : Nat) (w : Word) : State :=
  match sp with
  | .dm => { s with dm := writeWord s.dm i w }
  | .tm => { s with tm := writeWord s.tm i w }

/-! ### Registers -/

/-- Entry `k` of a matrix bank (R26). -/
def affineEntry (m : Affine) (k : Fin 6) : Word :=
  match k with
  | 0 => m.a
  | 1 => m.b
  | 2 => m.c
  | 3 => m.d
  | 4 => m.e
  | 5 => m.f

/-- Replace entry `k` of a matrix bank. -/
def setAffineEntry (m : Affine) (k : Fin 6) (w : Word) : Affine :=
  match k with
  | 0 => { m with a := w }
  | 1 => { m with b := w }
  | 2 => { m with c := w }
  | 3 => { m with d := w }
  | 4 => { m with e := w }
  | 5 => { m with f := w }

/-- The `k`-th of `V1X V1Y V2X V2Y V3X V3Y` (R22). -/
def vertexEntry (v : Vertices) (k : Fin 6) : Word :=
  match k with
  | 0 => v.x1
  | 1 => v.y1
  | 2 => v.x2
  | 3 => v.y2
  | 4 => v.x3
  | 5 => v.y3

/-- Replace the `k`-th vertex register. -/
def setVertexEntry (v : Vertices) (k : Fin 6) (w : Word) : Vertices :=
  match k with
  | 0 => { v with x1 := w }
  | 1 => { v with y1 := w }
  | 2 => { v with x2 := w }
  | 3 => { v with y2 := w }
  | 4 => { v with x3 := w }
  | 5 => { v with y3 := w }

/-- `x[NAME]` as the host reads it (R10, R175): `CMD` stores nothing and reads 0 (R35). -/
def readReg (s : State) : Reg → Word
  | .cmd => 0
  | .status => statusWord s
  | .errinfo => s.errinfo
  | .fbW => s.fbW
  | .fbH => s.fbH
  | .shader => s.shader
  | .color => s.color
  | .texW => s.texW
  | .texH => s.texH
  | .v k => vertexEntry s.vtx k
  | .ctm k => affineEntry s.ctm k
  | .loc k => affineEntry s.loc k
  | .xf k => affineEntry s.xf k

/-- A host write to a register other than `CMD` (R174): an RW register stores the whole word, unmasked
and unchecked (R21); a write to an RO register is ignored. -/
def writeReg (s : State) (r : Reg) (w : Word) : State :=
  match r with
  | .cmd => s
  | .status => s
  | .errinfo => s
  | .fbW => { s with fbW := w }
  | .fbH => { s with fbH := w }
  | .shader => { s with shader := w }
  | .color => { s with color := w }
  | .texW => { s with texW := w }
  | .texH => { s with texH := w }
  | .v k => { s with vtx := setVertexEntry s.vtx k w }
  | .ctm k => { s with ctm := setAffineEntry s.ctm k w }
  | .loc k => { s with loc := setAffineEntry s.loc k w }
  | .xf _ => s

/-! ### Errors and reset -/

/-- `raise E_X(info)`: taking an error (R204). It writes `STATUS.ERR` and `ERRINFO` and nothing else: no
register is saved, no mode changes, control goes nowhere (R210). -/
def raise (code : ErrCode) (info : Word) (s : State) : State :=
  { s with err := errField code, errinfo := info }

/-- Every register at its reset value (R44, R171, R221): the only exit from the fault state (R206). DM
and TM are not touched. -/
def resetRegisters (s : State) : State :=
  { s with
    ctxOk := false
    err := 0
    errinfo := 0
    fbW := 0
    fbH := 0
    shader := 0
    color := 0
    texW := 0
    texH := 0
    vtx := Vertices.zero
    ctm := Affine.identity
    loc := Affine.identity
    xf := Affine.zero }

/-- Power-on reset (R220): the registers at their reset values and the contents of both memories lost
(R45, R221), each byte now a free value of a new power-on. DESIGN CHOICE (log entry 3, unsafe): an event. -/
def powerOnReset (s : State) : State :=
  { resetRegisters s with dm := [], tm := [], powerOns := s.powerOns + 1 }

/-! ### The host's side -/

/-- Record what a bus transaction gave back to the host (R179, R180). -/
def respond (r : Response) (s : State) : State := { s with responses := r :: s.responses }

/-- Mark the free values of one command as drawn. -/
def drawFree (s : State) : State := { s with freeCount := s.freeCount + 1 }

end Sys2Proof.Machine
end

