-- ==== Sys2Proof/Machine/Control.lean ====
section
/-! DEFINITION. The control commands `NOP` (R170) and `RESET` (R171). -/

namespace Sys2Proof.Machine

/-- `NOP` (R170): nothing changes, in the fault state or out of it. -/
def execNop (s : State) : Host.Outcome State Fault Refusal := .next s

/-- `RESET` (R171, R221): every register back to its reset value, in every state; DM and TM keep what
they hold. -/
def execReset (s : State) : Host.Outcome State Fault Refusal := .next (resetRegisters s)

end Sys2Proof.Machine
end

