-- ==== Sys2Proof/Machine/Float.lean ====
section
/-! DEFINITION. The `NUMERICS` record (R6, R110 to R113, U11): the record as a structure of functions, the
decided one, IEEE 754 binary32 with round to nearest even, subnormals kept, no fused operation, no exception
flag, and the others, whose primitives are free (log entry 13). -/

namespace Sys2Proof.Machine

/-- A binary32 pattern taken apart (R87): a finite value is `(−1)^neg · m · 2^e`. -/
inductive FloatVal where
  | nan
  | inf (neg : Bool)
  | fin (neg : Bool) (m : Nat) (e : Int)
deriving DecidableEq, Repr

/-- Field `e` of R87, bits 30:23. -/
def expField (w : Word) : Nat := w.toNat / 2 ^ 23 % 256

/-- Field `m` of R87, bits 22:0. -/
def fracField (w : Word) : Nat := w.toNat % 2 ^ 23

/-- Bit 31 of R87. -/
def signBit (w : Word) : Bool := decide (2 ^ 31 ≤ w.toNat)

/-- A NaN: exponent field all ones, fraction not zero (R29, R87). -/
def isNaN (w : Word) : Bool := expField w == 255 && fracField w != 0

/-- The reading of a pattern as binary32 (R87). -/
def unpack (w : Word) : FloatVal :=
  if expField w = 255 then
    if fracField w = 0 then .inf (signBit w) else .nan
  else if expField w = 0 then .fin (signBit w) (fracField w) (-149)
  else .fin (signBit w) (2 ^ 23 + fracField w) ((expField w : Int) - 150)

/-- The NaN the primitives answer with. Nothing inside the DRC depends on which NaN it is (U4); what a
register then holds is settled where it is stored (log entry 6). -/
def quietNaN : Word := 0x7FC00000

/-- A pattern from its sign and its lower 31 bits. -/
def withSign (neg : Bool) (mag : Nat) : Word :=
  BitVec.ofNat 32 (mag + if neg then 2 ^ 31 else 0)

/-- A zero of the given sign. -/
def zeroOf (neg : Bool) : Word := withSign neg 0

/-- An infinity of the given sign. -/
def infOf (neg : Bool) : Word := withSign neg 0x7F800000

/-- `a >> n` over the integers: the arithmetic shift `floor(a / 2^n)` (R9). -/
def asr (a : Int) (n : Nat) : Int := a >>> n

/-- `x` negated when `neg`. -/
def signed (neg : Bool) (x : Int) : Int := if neg then -x else x

/-- `m / 2^k` rounded to the nearest integer, ties to the even one: `rne` of R9 on a magnitude. -/
def rneShift (m k : Nat) : Nat :=
  let q := m / 2 ^ k
  let r := m % 2 ^ k
  if 2 * r > 2 ^ k ∨ (2 * r = 2 ^ k ∧ q % 2 = 1) then q + 1 else q

/-- The exponent of the last place of the binary32 nearest `m · 2^e`: 23 below the leading bit, and not
below that of the subnormals. -/
def lastPlace (m : Nat) (e : Int) : Int := max ((Nat.log2 m : Int) + e - 23) (-149)

/-- `m · 2^e` as a whole number of units of `2^q`: exact where it is one, else rounded to nearest even. -/
def scaleTo (m : Nat) (e q : Int) : Nat :=
  if q ≤ e then m * 2 ^ (e - q).toNat else rneShift m (q - e).toNat

/-- The lower 31 bits of the pattern for `n` units of `2^q`, `n ≤ 2^24` (R87): below `2^23` units it is a
subnormal, and a value past the largest finite one is infinity. -/
def packMag (n : Nat) (q : Int) : Nat :=
  min (if n < 2 ^ 23 then n else (q + 150).toNat * 2 ^ 23 + (n - 2 ^ 23)) 0x7F800000

/-- The lower 31 bits of the binary32 nearest `m · 2^e`, ties to even; infinity where it overflows. -/
def roundMag (m : Nat) (e : Int) : Nat := packMag (scaleTo m e (lastPlace m e)) (lastPlace m e)

/-- The binary32 nearest `(−1)^neg · m · 2^e`; a zero keeps the sign. -/
def roundPack (neg : Bool) (m : Nat) (e : Int) : Word :=
  if m = 0 then zeroOf neg else withSign neg (roundMag m e)

/-- `fneg` inverts bit 31 and nothing else (R111). -/
def fneg (a : Word) : Word := a ^^^ 0x80000000

/-- `feq0` is true exactly on the two zeros (R112). -/
def feq0 (a : Word) : Bool := a == 0x00000000 || a == 0x80000000

/-- The sum of two finite values: exact, then rounded once. An exact zero is −0 only when both are. -/
def addFinite (s : Bool) (m : Nat) (e : Int) (t : Bool) (n : Nat) (f : Int) : Word :=
  let g := min e f
  let x := signed s (m * 2 ^ (e - g).toNat) + signed t (n * 2 ^ (f - g).toNat)
  if x = 0 then zeroOf (s && t) else roundPack (decide (x < 0)) x.natAbs g

/-- `fadd` (R110). -/
def fadd (a b : Word) : Word :=
  match unpack a, unpack b with
  | .nan, _ => quietNaN
  | _, .nan => quietNaN
  | .inf s, .inf t => if s = t then infOf s else quietNaN
  | .inf s, .fin _ _ _ => infOf s
  | .fin _ _ _, .inf t => infOf t
  | .fin s m e, .fin t n f => addFinite s m e t n f

/-- `fsub` (R110): the sum with the second operand negated. -/
def fsub (a b : Word) : Word := fadd a (fneg b)

/-- `fmul` (R110). -/
def fmul (a b : Word) : Word :=
  match unpack a, unpack b with
  | .nan, _ => quietNaN
  | _, .nan => quietNaN
  | .inf s, .inf t => infOf (s ^^ t)
  | .inf s, .fin t n _ => if n = 0 then quietNaN else infOf (s ^^ t)
  | .fin s m _, .inf t => if m = 0 then quietNaN else infOf (s ^^ t)
  | .fin s m e, .fin t n f => roundPack (s ^^ t) (m * n) (e + f)

/-- The quotient of two finite values, the divisor not zero: 60 more bits than the dividend has, and a
last bit that says whether a remainder is left, so that one rounding of it is the rounding of the exact
quotient. -/
def divFinite (s : Bool) (m : Nat) (e : Int) (t : Bool) (n : Nat) (f : Int) : Word :=
  let q := m * 2 ^ 60 / n
  let sticky := if m * 2 ^ 60 % n = 0 then 0 else 1
  roundPack (s ^^ t) (2 * q + sticky) (e - f - 61)

/-- `fdiv` (R110). -/
def fdiv (a b : Word) : Word :=
  match unpack a, unpack b with
  | .nan, _ => quietNaN
  | _, .nan => quietNaN
  | .inf _, .inf _ => quietNaN
  | .inf s, .fin t _ _ => infOf (s ^^ t)
  | .fin s _ _, .inf t => zeroOf (s ^^ t)
  | .fin s m e, .fin t n f =>
    if n = 0 then (if m = 0 then quietNaN else infOf (s ^^ t)) else divFinite s m e t n f

/-- `i2f`: the binary32 of a small integer (R113). -/
def i2f (n : Nat) : Word := roundPack false n 0

/-- `HALF`, 0.5 (R113). -/
def half : Word := 0x3F000000

/-- The floor of a finite value taken apart (R127): the floor of `(−1)^neg · m · 2^e`, over the integers. -/
def floorOf (neg : Bool) (m : Nat) (e : Int) : Int :=
  asr (signed neg m * 2 ^ e.toNat) (-e).toNat

/-- `ffloor` (R127): the floor of a finite pattern, over the integers. The spec gives it no value on NaN and
the infinities, and `TEXIDX` does not ask for one (log entry 16). -/
def ffloor (a : Word) : Int :=
  match unpack a with
  | .fin s m e => floorOf s m e
  | _ => 0

/-! ### The record -/

/-- A `NUMERICS` record: the eight primitives of R6, each a function of its operands alone (R110). -/
structure Numerics where
  fadd : Word → Word → Word
  fsub : Word → Word → Word
  fmul : Word → Word → Word
  fdiv : Word → Word → Word
  fneg : Word → Word
  i2f : Nat → Word
  feq0 : Word → Bool
  ffloor : Word → Int

/-- The decided record: IEEE 754 binary32 (R6, R110 to R113). -/
def binary32Record : Numerics :=
  { fadd := fadd
    fsub := fsub
    fmul := fmul
    fdiv := fdiv
    fneg := fneg
    i2f := i2f
    feq0 := feq0
    ffloor := ffloor }

/-- Record number `k` of the others: every primitive a free function (U11). -/
def otherRecord (k : Nat) : Numerics :=
  { fadd := Config.otherFadd k
    fsub := Config.otherFsub k
    fmul := Config.otherFmul k
    fdiv := Config.otherFdiv k
    fneg := Config.otherFneg k
    i2f := Config.otherI2f k
    feq0 := Config.otherFeq0 k
    ffloor := Config.otherFfloor k }

/-- The record a name stands for. -/
def numericsOf (id : NumericsId) : Numerics :=
  match id with
  | .binary32 => binary32Record
  | .other k => otherRecord k

/-- The record this machine computes with (R6, R110). -/
def arith (s : State) : Numerics := numericsOf s.params.numerics

/-! ### Reading a pattern -/

/-- The exact value of a finite pattern as a whole number of units of 2^−149, the spacing of the
subnormals (R87); 0 for infinities and NaN. Every finite binary32 is such a whole number. -/
def unitsOf (w : Word) : Int :=
  match unpack w with
  | .fin s m e => signed s (m * 2 ^ (e + 149).toNat)
  | _ => 0

/-- Neither an infinity nor a NaN (R87). -/
def isFinite (w : Word) : Bool := expField w != 255

end Sys2Proof.Machine
end

