-- ==== Sys2Proof/Machine/Operands.lean ====
section
/-! DEFINITION. The operand forms: pixel channels (R86), dimension and mode words (R88, R89), the
28.4 conversion `FIX` (R144), the texel index `TEXIDX` (R127) and the index laws (R51, R52). -/

namespace Sys2Proof.Machine

/-! ### Pixels -/

/-- Channel `a` of a pixel word, bits 31:24 (R86). -/
def chA (p : Word) : Nat := (p.extractLsb' 24 8).toNat

/-- Channel `r`, bits 23:16 (R86). -/
def chR (p : Word) : Nat := (p.extractLsb' 16 8).toNat

/-- Channel `g`, bits 15:8 (R86). -/
def chG (p : Word) : Nat := (p.extractLsb' 8 8).toNat

/-- Channel `b`, bits 7:0 (R86). -/
def chB (p : Word) : Nat := (p.extractLsb' 0 8).toNat

/-- The pixel word `{a, r, g, b}` (R86). -/
def pixel (a r g b : Byte) : Word := a ++ r ++ g ++ b

/-- A valid pixel: no colour channel above its alpha (R15, R86). -/
def validPixel (p : Word) : Bool :=
  decide (chR p ≤ chA p) && decide (chG p ≤ chA p) && decide (chB p ≤ chA p)

/-! ### Vertex coordinates -/

/-- `m / 2^k` rounded to the nearest integer, ties away from zero: the alternative `half_away` of
`VTX_ROUND` (R6). -/
def rhaShift (m k : Nat) : Nat :=
  if 2 * (m % 2 ^ k) ≥ 2 ^ k then m / 2 ^ k + 1 else m / 2 ^ k

/-- Round a magnitude by `VTX_ROUND` (R144). -/
def roundVtx (r : VtxRound) (m k : Nat) : Nat :=
  match r with
  | .halfEven => rneShift m k
  | .halfAway => rhaShift m k

/-- `FIX(w)` (R144): the binary32 word as a 28.4 fixed-point integer, from the exact product `16·w`;
none for a NaN, an infinity or a value outside 32 signed bits. -/
def fix (r : VtxRound) (w : Word) : Option Int :=
  match unpack w with
  | .nan => none
  | .inf _ => none
  | .fin s m e =>
    let x := signed s (roundVtx r (m * 2 ^ (e + 4).toNat) (-(e + 4)).toNat)
    if x < -2 ^ 31 ∨ x > 2 ^ 31 - 1 then none else some x

/-! ### Texture coordinates -/

/-- `max(0, min(k, n − 1))` (R127). -/
def clampIndex (k : Int) (n : Nat) : Nat := (max 0 (min k ((n : Int) - 1))).toNat

/-- `TEXIDX(t, n)` (R127), `n ≥ 1`, with the floor of the machine's `NUMERICS` record. A NaN gives
`NAN_INDEX`, kept inside `0 … n − 1` for parameter values other than the spec's 0 (U9; DESIGN CHOICE, log
entry 7). -/
def texIdx (f : Numerics) (nanIndex : Nat) (t : Word) (n : Nat) : Nat :=
  match unpack t with
  | .nan => min nanIndex (n - 1)
  | .inf true => 0
  | .inf false => n - 1
  | .fin _ _ _ => clampIndex (f.ffloor t) n

/-! ### Index laws -/

/-- `i = x + y·w`: the index of pixel `(x, y)` in a bitmap of width `w` (R51, R52). -/
def pixelIndex (w x y : Nat) : Nat := x + y * w

end Sys2Proof.Machine
end

