-- ==== Sys2Proof/Machine/Blend.lean ====
section
/-! DEFINITION. The blender, unit BLD: `BLEND` and `BLENDROW` (R100 to R107). -/

namespace Sys2Proof.Machine

/-- `t_k = (sub · D.k · M + 2^23) >> 24` with `M = 65793`: the magic-constant division by 255 (R100). -/
def blendTerm (sub d : Nat) : Nat := (sub * d * 65793 + 2 ^ 23) >>> 24

/-- `F_k = S.k + t_k` (R100). -/
def blendSum (sub s d : Nat) : Nat := s + blendTerm sub d

/-- The channel that is stored: `F_k` where it fits, else a free value (R105, U1). -/
def blendChannel (free : Byte) (f : Nat) : Byte :=
  if f ≤ 255 then BitVec.ofNat 8 f else free

/-- `BLEND(S, D)` (R100): source-over of two premultiplied pixels. The free values stand for the
channels, in the order a, r, g, b, whose sum does not fit (R105). -/
def blend (freeA freeR freeG freeB : Byte) (s d : Word) : Word :=
  let sub := 255 - chA s
  pixel (blendChannel freeA (blendSum sub (chA s) (chA d)))
    (blendChannel freeR (blendSum sub (chR s) (chR d)))
    (blendChannel freeG (blendSum sub (chG s) (chG d)))
    (blendChannel freeB (blendSum sub (chB s) (chB d)))

/-- `BLEND` of the pixel at DM index `i`, with the free values of draw number `serial`. -/
def blendAt (serial i : Nat) (s d : Word) : Word :=
  blend (Config.overflowByte serial i 0) (Config.overflowByte serial i 1)
    (Config.overflowByte serial i 2) (Config.overflowByte serial i 3) s d

/-- `BLENDROW(src, dst)` (R107), element by element; `i` is the DM index of the first element. The two
lists have one length wherever it is called (R107). -/
def blendRow (serial i : Nat) : List Word → List Word → List Word
  | s :: src, d :: dst => blendAt serial i s d :: blendRow serial (i + 1) src dst
  | _, _ => []

end Sys2Proof.Machine
end

