-- ==== Sys2Proof/Machine/Shader.lean ====
section
/-! DEFINITION. The shader engine, unit SHD: `SET_CONTEXT` (R117 to R121), `SHADE_ROW` (R123 to R130)
and the command `SETCTX` (R116). -/

namespace Sys2Proof.Machine

/-! ### SET_CONTEXT -/

/-- The product `P = A · B` in the nesting R119 fixes (R114). -/
def matMul (n : Numerics) (m l : Affine) : Affine :=
  { a := n.fadd (n.fmul m.a l.a) (n.fmul m.b l.d)
    b := n.fadd (n.fmul m.a l.b) (n.fmul m.b l.e)
    c := n.fadd (n.fadd (n.fmul m.a l.c) (n.fmul m.b l.f)) m.c
    d := n.fadd (n.fmul m.d l.a) (n.fmul m.e l.d)
    e := n.fadd (n.fmul m.d l.b) (n.fmul m.e l.e)
    f := n.fadd (n.fadd (n.fmul m.d l.c) (n.fmul m.e l.f)) m.f }

/-- `det = a·e − b·d` in the nesting of R120. -/
def matDet (n : Numerics) (p : Affine) : Word := n.fsub (n.fmul p.a p.e) (n.fmul p.b p.d)

/-- The six entries of the inverse, one division each (R120). -/
def matInv (n : Numerics) (p : Affine) : Affine :=
  let det := matDet n p
  { a := n.fdiv p.e det
    b := n.fdiv (n.fneg p.b) det
    c := n.fdiv (n.fsub (n.fmul p.b p.f) (n.fmul p.c p.e)) det
    d := n.fdiv (n.fneg p.d) det
    e := n.fdiv p.a det
    f := n.fdiv (n.fsub (n.fmul p.c p.d) (n.fmul p.a p.f)) det }

/-- A NaN pattern made from free bits: any NaN pattern is the value for some bits (R29, U4). -/
def anyNaN (bits : Word) : Word := if isNaN bits then bits else quietNaN

/-- The pattern an `XF` register takes from a result: the result, but for a NaN, whose sign and
fraction are unspecified (R29, U4). -/
def storeFloat (bits result : Word) : Word := if isNaN result then anyNaN bits else result

/-- The six `XF` registers as `SET_CONTEXT` number `serial` stores them. -/
def storeAffine (serial : Nat) (m : Affine) : Affine :=
  { a := storeFloat (Config.nanBits serial 0) m.a
    b := storeFloat (Config.nanBits serial 1) m.b
    c := storeFloat (Config.nanBits serial 2) m.c
    d := storeFloat (Config.nanBits serial 3) m.d
    e := storeFloat (Config.nanBits serial 4) m.e
    f := storeFloat (Config.nanBits serial 5) m.f }

/-- `SET_CONTEXT`, bitmap mode (R119, R120): a singular product clears `CTX_OK` and leaves `XF`; any
other, a NaN determinant included (R121), loads `XF` and sets `CTX_OK`. -/
def setContextBitmap (s : State) : State :=
  let n := arith s
  let p := matMul n s.ctm s.loc
  if n.feq0 (matDet n p) then setCtxOk false s
  else drawFree (setCtxOk true { s with xf := storeAffine s.freeCount (matInv n p) })

/-- `SET_CONTEXT()` (R117): colour mode always succeeds and touches nothing else (R118). -/
def setContext (s : State) : State :=
  if s.shader.toNat = 0 then setCtxOk true s else setContextBitmap s

/-! ### SHADE_ROW -/

/-- The start coordinate `c0·fx + c1·fy + c2` in the nesting of R126. -/
def startCoord (n : Numerics) (c0 c1 c2 fx fy : Word) : Word :=
  n.fadd (n.fadd (n.fmul c0 fx) (n.fmul c1 fy)) c2

/-- The pixel centre coordinate `x + 0.5` (R113, R126). -/
def centre (n : Numerics) (x : Nat) : Word := n.fadd (n.i2f x) half

/-- The texel sampled at texture coordinates `(u, v)`: nearest neighbour, clamped to the edge (R52,
R127, R128). -/
def sampleTexel (s : State) (u v : Word) : Word :=
  readWord s .tm (pixelIndex s.texW.toNat
    (texIdx (arith s) s.params.nanIndex u s.texW.toNat)
    (texIdx (arith s) s.params.nanIndex v s.texH.toNat))

/-- The row loop of R128: sample at the current `(u, v)`, then step by `(XF0, XF3)`. -/
def shadeBitmapFrom (s : State) : Nat → Word → Word → List Word
  | 0, _, _ => []
  | n + 1, u, v => sampleTexel s u v ::
    shadeBitmapFrom s n ((arith s).fadd u s.xf.a) ((arith s).fadd v s.xf.d)

/-- `SHADE_ROW`, bitmap mode (R125 to R128). -/
def shadeBitmap (s : State) (x y count : Nat) : List Word :=
  let n := arith s
  shadeBitmapFrom s count
    (startCoord n s.xf.a s.xf.b s.xf.c (centre n x) (centre n y))
    (startCoord n s.xf.d s.xf.e s.xf.f (centre n x) (centre n y))

/-- `SHADE_ROW(x, y, count)` (R123): in colour mode `count` copies of `COLOR` (R124). -/
def shadeRow (s : State) (x y count : Nat) : List Word :=
  if s.shader.toNat = 0 then List.replicate count s.color else shadeBitmap s x y count

/-! ### SETCTX -/

/-- `SETCTX` (R116): ignored in the fault state (R205); `E_CFG(1)` for an unknown shader mode; else
`SET_CONTEXT`. -/
def execSetctx (s : State) : Host.Outcome State Fault Refusal :=
  if inFault s then .next s
  else if s.shader.toNat > 1 then .next (raise .cfg 1 s)
  else .next (setContext s)

end Sys2Proof.Machine
end

