-- ==== Sys2Proof/Machine/Raster.lean ====
section
/-! DEFINITION. The rasterizer, unit RAST: the command `DRAWTRI` (R140 to R166). All integer arithmetic
is over the integers (R153). -/

namespace Sys2Proof.Machine

/-! ### Configuration and vertices -/

/-- `CONFIG_CHECK()` (R142): the number of the first of the six checks that fails. -/
def configCheck (s : State) : Option Nat :=
  if s.shader.toNat > 1 then some 1
  else if s.fbW.toNat > Config.maxDim ∨ s.fbH.toNat > Config.maxDim then some 2
  else if s.fbW.toNat * s.fbH.toNat > s.params.dmPixels then some 3
  else if s.shader.toNat ≠ 1 then none
  else if s.texW.toNat = 0 ∨ s.texH.toNat = 0 then some 4
  else if s.texW.toNat > Config.maxDim ∨ s.texH.toNat > Config.maxDim then some 5
  else if s.texW.toNat * s.texH.toNat > s.params.tmPixels then some 6
  else none

/-- The six coordinates in 28.4 fixed point (R41, R90). -/
structure Fixed where
  x1 : Int
  y1 : Int
  x2 : Int
  y2 : Int
  x3 : Int
  y3 : Int
deriving DecidableEq, Repr

/-- Convert one coordinate register, or name its position (R143). -/
def fixAt (r : VtxRound) (k : Nat) (w : Word) : Except Nat Int :=
  match fix r w with
  | some x => .ok x
  | none => .error k

/-- The six conversions in the order of R143; an error is the position 0 to 5 of the first that fails. -/
def fixVertices (r : VtxRound) (v : Vertices) : Except Nat Fixed := do
  let x1 ← fixAt r 0 v.x1
  let y1 ← fixAt r 1 v.y1
  let x2 ← fixAt r 2 v.x2
  let y2 ← fixAt r 3 v.y2
  let x3 ← fixAt r 4 v.x3
  let y3 ← fixAt r 5 v.y3
  return { x1 := x1, y1 := y1, x2 := x2, y2 := y2, x3 := x3, y3 := y3 }

/-! ### Setup -/

/-- The deltas and the corrected constant of one edge (R145, R149, R150). -/
structure Edge where
  dx : Int
  dy : Int
  c : Int
deriving DecidableEq, Repr

/-- The fill convention (R150): an edge that owns the sample points lying exactly on it. -/
def ownsEdge (dx dy : Int) : Bool := decide (dy > 0) || (decide (dy = 0) && decide (dx < 0))

/-- The edge from `(xi, yi)` to `(xj, yj)`: first vertex minus second (R145), `c = dy·X − dx·Y` at the
first vertex (R149), less 1 where the edge owns its points (R150). -/
def mkEdge (xi yi xj yj : Int) : Edge :=
  let dx := xi - xj
  let dy := yi - yj
  let c := dy * xi - dx * yi
  { dx := dx, dy := dy, c := if ownsEdge dx dy then c - 1 else c }

/-- The three edges 12, 23 and 31. -/
structure Edges where
  e12 : Edge
  e23 : Edge
  e31 : Edge
deriving DecidableEq, Repr

/-- The edges of a triangle (R145, R149, R150). -/
def mkEdges (t : Fixed) : Edges :=
  { e12 := mkEdge t.x1 t.y1 t.x2 t.y2
    e23 := mkEdge t.x2 t.y2 t.x3 t.y3
    e31 := mkEdge t.x3 t.y3 t.x1 t.y1 }

/-- Pixel bounds, half open: `xmin ≤ x < xmax` and `ymin ≤ y < ymax` (R146). -/
structure Bounds where
  xmin : Int
  xmax : Int
  ymin : Int
  ymax : Int
deriving DecidableEq, Repr

/-- `(v + 15) >> 4`, the ceiling of a 28.4 value (R146). -/
def ceilFix (v : Int) : Int := asr (v + 15) 4

/-- The raw bounds of R146. -/
def rawBounds (t : Fixed) : Bounds :=
  { xmin := ceilFix (min (min t.x1 t.x2) t.x3)
    xmax := ceilFix (max (max t.x1 t.x2) t.x3)
    ymin := ceilFix (min (min t.y1 t.y2) t.y3)
    ymax := ceilFix (max (max t.y1 t.y2) t.y3) }

/-- The bounds clipped to the canvas `(0, 0, FB_W, FB_H)` (R147). -/
def clipBounds (fbW fbH : Nat) (b : Bounds) : Bounds :=
  { xmin := max b.xmin 0
    xmax := min b.xmax fbW
    ymin := max b.ymin 0
    ymax := min b.ymax fbH }

/-- No column or no row is left (R148). -/
def emptyBounds (b : Bounds) : Bool := decide (b.xmin ≥ b.xmax) || decide (b.ymin ≥ b.ymax)

/-! ### Edge values -/

/-- One accumulator per edge: `cy1, cy2, cy3` of a row or `cx1, cx2, cx3` of a pixel (R151, R154). -/
structure Acc where
  k1 : Int
  k2 : Int
  k3 : Int
deriving DecidableEq, Repr

/-- `cy = c + dx·(ymin << 4) − dy·(xmin << 4)` for one edge (R151). -/
def edgeStart (e : Edge) (xmin ymin : Int) : Int := e.c + e.dx * (ymin * 16) - e.dy * (xmin * 16)

/-- The row values at the first row (R151). -/
def accStart (es : Edges) (b : Bounds) : Acc :=
  { k1 := edgeStart es.e12 b.xmin b.ymin
    k2 := edgeStart es.e23 b.xmin b.ymin
    k3 := edgeStart es.e31 b.xmin b.ymin }

/-- After each pixel: subtract `fdy = dy << 4` (R145, R158). -/
def accStepX (es : Edges) (a : Acc) : Acc :=
  { k1 := a.k1 - es.e12.dy * 16
    k2 := a.k2 - es.e23.dy * 16
    k3 := a.k3 - es.e31.dy * 16 }

/-- After each row: add `fdx = dx << 4` (R145, R154). -/
def accStepY (es : Edges) (a : Acc) : Acc :=
  { k1 := a.k1 + es.e12.dx * 16
    k2 := a.k2 + es.e23.dx * 16
    k3 := a.k3 + es.e31.dx * 16 }

/-- The coverage test: all three values strictly negative (R158). -/
def covered (a : Acc) : Bool := decide (a.k1 < 0) && decide (a.k2 < 0) && decide (a.k3 < 0)

/-! ### The scanline loop -/

/-- The pixel loop of a row (R158): `i` is the DM index of the current pixel, the list the blended
pixels still to come. -/
def drawPixels (es : Edges) : Nat → Acc → List Word → State → State
  | _, _, [], s => s
  | i, a, p :: ps, s =>
    drawPixels es (i + 1) (accStepX es a) ps (if covered a then memWrite s .dm i p else s)

/-- `ROW(y)` without the step to the next row (R154 to R158): shade the whole clipped width, read the
whole destination segment, blend, then write the covered pixels. -/
def drawRow (serial : Nat) (es : Edges) (xmin count y : Nat) (cy : Acc) (s : State) : State :=
  let first := pixelIndex s.fbW.toNat xmin y
  let shaded := shadeRow s xmin y count
  let dst := memRead s .dm first count
  drawPixels es first cy (blendRow serial first shaded dst) s

/-- The rows from `y` on, `n` of them (R154). -/
def drawRows (serial : Nat) (es : Edges) (xmin count : Nat) : Nat → Nat → Acc → State → State
  | 0, _, _, s => s
  | n + 1, y, cy, s =>
    drawRows serial es xmin count n (y + 1) (accStepY es cy) (drawRow serial es xmin count y cy s)

/-- From the converted vertices on (R145 to R158). -/
def drawTriangle (t : Fixed) (s : State) : State :=
  let b := clipBounds s.fbW.toNat s.fbH.toNat (rawBounds t)
  if emptyBounds b then s
  else
    let es := mkEdges t
    drawFree (drawRows s.freeCount es b.xmin.toNat (b.xmax - b.xmin).toNat (b.ymax - b.ymin).toNat
      b.ymin.toNat (accStart es b) s)

/-! ### DRAWTRI -/

/-- `DRAWTRI` after its configuration check and `SET_CONTEXT` (R141, R143): skipped when the shader is
not usable, `E_VTX` for a coordinate that cannot be converted, else drawn. -/
def drawAfterContext (s : State) : State :=
  if s.ctxOk then
    match fixVertices s.params.vtxRound s.vtx with
    | .error k => raise .vtx (BitVec.ofNat 32 k) s
    | .ok t => drawTriangle t s
  else s

/-- `DRAWTRI` (R140): the order of the tests is R208's. -/
def execDrawtri (s : State) : Host.Outcome State Fault Refusal :=
  if inFault s then .next s
  else
    match configCheck s with
    | some n => .next (raise .cfg (BitVec.ofNat 32 n) s)
    | none => .next (drawAfterContext (setContext s))

end Sys2Proof.Machine
end

