-- ==== Sys2Proof/Machine/Dispatch.lean ====
section
/-! DEFINITION. The dispatch of the four commands to their meanings, one arm each. -/

namespace Sys2Proof.Machine

def exec (i : Instr) (s : State) : Host.Outcome State Fault Refusal :=
  match i with
  | .nop => Sys2Proof.Machine.execNop s
  | .setctx => Sys2Proof.Machine.execSetctx s
  | .drawtri => Sys2Proof.Machine.execDrawtri s
  | .reset => Sys2Proof.Machine.execReset s

end Sys2Proof.Machine
end

