-- ==== Sys2Proof/Machine/Bus.lean ====
section
/-! DEFINITION. The host interface: command writes (R81, R205), register and memory transactions (R174
to R177), refused transactions (R56, R178), and power-on reset (R220). -/

namespace Sys2Proof.Machine

/-- A word written to `CMD` (R81). In the fault state every word but `RESET`'s is ignored, undecoded
(R205). Otherwise a command word is executed and any other word raises `E_CMD` with the word (R201). -/
def command (c : Word) (s : State) : Host.Outcome State Fault Refusal :=
  if inFault s && c != encode .reset then .next s
  else
    match decode c with
    | .ok i => exec i s
    | .error _ => .next (raise .cmd c s)

/-- `REGWR(off, w)` (R174): offset 0 is a command, another register is written, a reserved offset is
ignored (R74). -/
def regWr (off : Nat) (w : Word) (s : State) : Host.Outcome State Fault Refusal :=
  match Reg.ofOffset off with
  | some .cmd => command w s
  | some r => .next (writeReg s r w)
  | none => .next s

/-- `REGRD(off)` (R175): reserved offsets read 0 (R74). -/
def regRd (off : Nat) (s : State) : Word :=
  match Reg.ofOffset off with
  | some r => readReg s r
  | none => 0

/-- A bus write to what its address names (R174, R176), or refused: a bus error and no change (R56). -/
def busWrite (addr width : Nat) (data : Word) (s : State) : Host.Outcome State Fault Refusal :=
  match locate s.params addr width with
  | some (.reg off) => regWr off data (respond .done s)
  | some (.mem sp i) => .next (memWrite (respond .done s) sp i data)
  | none => .next (respond .busError s)

/-- What a bus read gives back (R175, R177), or a bus error (R56). -/
def busReadValue (addr width : Nat) (s : State) : Response :=
  match locate s.params addr width with
  | some (.reg off) => .data (regRd off s)
  | some (.mem sp i) => .data (readWord s sp i)
  | none => .busError

/-- One event from outside: a bus write, a bus read, which changes nothing but the record of responses
(R24, R57), or power-on reset (R220). -/
def hostEvent (ev : HostEvent) (s : State) : Host.Outcome State Fault Refusal :=
  match ev with
  | .write addr width data => busWrite addr width data s
  | .read addr width => .next (respond (busReadValue addr width s) s)
  | .powerOn => .next (powerOnReset s)

/-- The next event is taken from the host's stream (R62); with none to come the DRC does nothing (R220,
R46). -/
def takeEvent (s : State) : Host.Outcome State Fault Refusal :=
  match s.pending with
  | [] => .next s
  | ev :: rest => hostEvent ev { s with pending := rest }

/-- The event stream with a command write of the word `c` put in front (log entry 1). -/
def pushCommandWord (c : Word) (s : State) : State :=
  { s with pending := .write (busAddress s.params (.reg 0)) 32 c :: s.pending }

end Sys2Proof.Machine
end

