-- ==== Sys2Proof/Machine/Step.lean ====
section
/-! DEFINITION. One step of the machine is one host transaction, a command's whole effect included
(R12, R180). -/

namespace Sys2Proof.Machine

/-- One step: the next event of the host's stream (R12). -/
def step (s : State) : Host.Outcome State Fault Refusal := takeEvent s

/-- `s` with the command word of the low `nbits` bits of `w` as the host's next transaction: commands
are not fetched but arrive in writes to `CMD` (R30, R65). -/
def State.withFetchWord (s : State) (nbits w : Nat) : State :=
  pushCommandWord (BitVec.ofNat 32 (w % 2 ^ nbits)) s

end Sys2Proof.Machine
end

