-- ==== Sys2Proof/WellFormed.lean ====
section
/-! DEFINITION. Well-formedness of what the host says and of the parameters. A command has no operand
field (R80), so every term of `Instr` is well formed; what can be ill formed is a bus transaction
(R56, R70), a register offset (R73, R74) and a set of parameters (R6, R71). -/

namespace Sys2Proof

/-- Every command is well formed: format C has no operand field (R80). -/
def Instr.wf : Instr → Bool
  | .nop => true
  | .setctx => true
  | .drawtri => true
  | .reset => true

/-- Every transaction to the DRC is exactly 32 bits wide at an address that is a multiple of 4 (R56). -/
def HostEvent.wf : HostEvent → Bool
  | .write addr width _ => width == 32 && addr % 4 == 0
  | .read addr width => width == 32 && addr % 4 == 0
  | .powerOn => true

/-- A target the DRC has: an aligned offset inside the 256-byte register aperture, or an index below the
memory's size (R70, R71, R176). -/
def Target.wf (p : Params) : Target → Bool
  | .reg off => decide (off < 256) && off % 4 == 0
  | .mem .dm i => decide (i < p.dmPixels)
  | .mem .tm i => decide (i < p.tmPixels)

/-- Two byte ranges, given by base and length, share no address. -/
def apart (b1 n1 b2 n2 : Nat) : Bool :=
  decide (b1 + n1 ≤ b2) || decide (b2 + n2 ≤ b1)

/-- The conditions R6 and R71 put on the parameters: sizes at least 1, bases multiples of 4, the three
apertures disjoint. -/
def Params.wf (p : Params) : Bool :=
  decide (1 ≤ p.dmPixels) && decide (1 ≤ p.tmPixels) &&
  p.regBase % 4 == 0 && p.dmBase % 4 == 0 && p.tmBase % 4 == 0 &&
  apart p.regBase 256 p.dmBase (4 * p.dmPixels) &&
  apart p.regBase 256 p.tmBase (4 * p.tmPixels) &&
  apart p.dmBase (4 * p.dmPixels) p.tmBase (4 * p.tmPixels)

end Sys2Proof
end

