-- ==== Sys2Proof/Safety.lean ====
section
/-! DEFINITION. The terms claims are stated in: the invariants of the state, valid images, and the set
description of what a triangle covers (R152, R159, R161). -/

namespace Sys2Proof.Machine

/-! ### Invariants -/

/-- What `STATUS.ERR` and `ERRINFO` can hold together (R33, R34): no error and 0; `E_CMD` and a word that
is no command; `E_CFG` and a check number 1 to 6; `E_VTX` and a position 0 to 5. Codes 4 to 15 never. -/
def errorRecorded (s : State) : Prop :=
  (s.err = 0 ∧ s.errinfo = 0) ∨
  (s.err = 1 ∧ ∀ i, decode s.errinfo ≠ .ok i) ∨
  (s.err = 2 ∧ 1 ≤ s.errinfo.toNat ∧ s.errinfo.toNat ≤ 6) ∨
  (s.err = 3 ∧ s.errinfo.toNat ≤ 5)

/-- Whole words only: of the four bytes of a pixel word either all have been written or none (R57: a
pixel word is never half written). -/
def wholeWords (m : Memory) : Prop :=
  ∀ i, (∃ w : Word, byteAt? m (4 * i) = some (w.extractLsb' 0 8) ∧
      byteAt? m (4 * i + 1) = some (w.extractLsb' 8 8) ∧
      byteAt? m (4 * i + 2) = some (w.extractLsb' 16 8) ∧
      byteAt? m (4 * i + 3) = some (w.extractLsb' 24 8)) ∨
    (byteAt? m (4 * i) = none ∧ byteAt? m (4 * i + 1) = none ∧
      byteAt? m (4 * i + 2) = none ∧ byteAt? m (4 * i + 3) = none)

/-- A memory of `pixels` words in its canonical form: rising offsets, none outside the aperture, whole
words. -/
def memoryShaped (pixels : Nat) (m : Memory) : Prop :=
  Memory.wf m = true ∧ Memory.below pixels m = true ∧ wholeWords m

/-- The invariant of the machine. -/
def Inv (s : State) : Prop :=
  errorRecorded s ∧ memoryShaped s.params.dmPixels s.dm ∧ memoryShaped s.params.tmPixels s.tm

/-- Every pixel word of the machine is valid: `COLOR`, all of TM and all of DM (R228). -/
def validImages (s : State) : Prop :=
  validPixel s.color = true ∧ (∀ i, i < s.params.tmPixels → validPixel (readWord s .tm i) = true) ∧
    ∀ i, i < s.params.dmPixels → validPixel (readWord s .dm i) = true

/-! ### Coverage -/

/-- `EK(x, y) = cK + dxIJ · 16y − dyIJ · 16x` (R152). -/
def edgeValue (e : Edge) (x y : Int) : Int := e.c + e.dx * (16 * y) - e.dy * (16 * x)

/-- All three edge values at `(x, y)` are negative (R158, R159). -/
def insideEdges (es : Edges) (x y : Int) : Prop :=
  edgeValue es.e12 x y < 0 ∧ edgeValue es.e23 x y < 0 ∧ edgeValue es.e31 x y < 0

/-- The clipped bounds of a triangle on the canvas of the state (R146, R147). -/
def boundsOn (s : State) (t : Fixed) : Bounds := clipBounds s.fbW.toNat s.fbH.toNat (rawBounds t)

/-- Pixel `(x, y)` is in the set `C` of R159: inside the clipped bounds and covered. -/
def drawnPixel (s : State) (t : Fixed) (x y : Nat) : Prop :=
  (boundsOn s t).xmin ≤ x ∧ (x : Int) < (boundsOn s t).xmax ∧
  (boundsOn s t).ymin ≤ y ∧ (y : Int) < (boundsOn s t).ymax ∧ insideEdges (mkEdges t) x y

/-- Vertex `k + 1` of a triangle. Edge `k + 1` goes from corner `k` to corner `k + 1`, and the third one back
to the first corner: edges 12, 23 and 31 (R145). -/
def corner (t : Fixed) (k : Fin 3) : Int × Int :=
  match k with
  | 0 => (t.x1, t.y1)
  | 1 => (t.x2, t.y2)
  | 2 => (t.x3, t.y3)

/-- `A` of R161: twice the signed area in 28.4 units, positive for the drawn orientation (R160). -/
def signedArea (t : Fixed) : Int :=
  (t.x2 - t.x1) * (t.y3 - t.y1) - (t.y2 - t.y1) * (t.x3 - t.x1)

/-! ### Floats -/

/-- The pattern a float register holds after a result was stored in it: the result itself, or, where it
is a NaN, some NaN (R29). -/
def storedAs (result stored : Word) : Prop :=
  if isNaN result then isNaN stored = true else stored = result

/-- `r` is the binary32 nearest to the exact value `x / k` units (of 2^−149, `unitsOf`), ties to even
(R110): no finite pattern is nearer, and where another value is as near, the fraction of `r` is even. -/
def nearestFloat (r : Word) (k x : Int) : Prop :=
  isFinite r = true ∧ ∀ c : Word, isFinite c = true →
    |unitsOf r * k - x| ≤ |unitsOf c * k - x| ∧
    (|unitsOf r * k - x| = |unitsOf c * k - x| → unitsOf c = unitsOf r ∨ fracField r % 2 = 0)

/-- The exact value `x / k` units lies where rounding to nearest does not overflow: below the largest
finite binary32 plus half its last place. -/
def inFloatRange (k x : Int) : Prop := 2 * |x| < (2 ^ 25 - 1) * 2 ^ 253 * |k|

/-- An infinity: exponent field all ones, fraction zero (R87). -/
def isInf (w : Word) : Bool := expField w == 255 && fracField w == 0

/-- `r` is what one IEEE 754 rounding gives for the exact value `x / k` units (R110): the nearest binary32
where that does not overflow, else infinity, and in both cases with the sign `neg`, which is what tells the
two zeros apart. -/
def correctlyRounded (r : Word) (k x : Int) (neg : Bool) : Prop :=
  (inFloatRange k x → nearestFloat r k x) ∧
  (¬ inFloatRange k x → r = if neg then 0xFF800000 else 0x7F800000) ∧
  signBit r = neg

/-- The decided `NUMERICS` record (R6): the one the name `binary32` stands for. -/
def ieee : Numerics := numericsOf .binary32

/-! ### Configurations -/

/-- The configuration passes all six checks of R142. -/
def configured (s : State) : Prop :=
  s.shader.toNat ≤ 1 ∧ s.fbW.toNat ≤ 65535 ∧ s.fbH.toNat ≤ 65535 ∧
  s.fbW.toNat * s.fbH.toNat ≤ s.params.dmPixels ∧
  (s.shader.toNat = 1 → 1 ≤ s.texW.toNat ∧ 1 ≤ s.texH.toNat ∧
    s.texW.toNat ≤ 65535 ∧ s.texH.toNat ≤ 65535 ∧
    s.texW.toNat * s.texH.toNat ≤ s.params.tmPixels)

/-- The shader is usable under the current transform (R32): `SET_CONTEXT` sets `CTX_OK`. -/
def usable (s : State) : Prop := (setContext s).ctxOk = true

/-- The state in which the host's next event has been taken and its response recorded. -/
def afterEvent (s : State) (rest : List HostEvent) (r : Response) : State :=
  { s with pending := rest, responses := r :: s.responses }

end Sys2Proof.Machine
end

