-- ==== Sys2Proof/Certificates/Slice0/Obligations.lean ====
section
/-! DEFINITION. The statements for the provers, from the numbered rules of the spec. -/

open Sys2Proof Sys2Proof.Machine

/-! ## Encodings -/

/-- R82: the decoder answers each of the four commands on exactly one word. -/
def Obligations.DecodeAcceptsExactlyTheFourWords : Prop :=
  ∀ c : Word,
    (decode c = .ok .nop ↔ c = 0x00000000) ∧ (decode c = .ok .setctx ↔ c = 0x00000001) ∧
    (decode c = .ok .drawtri ↔ c = 0x00000002) ∧ (decode c = .ok .reset ↔ c = 0x0000000F)

/-- R82, R83: sample words of the spec's vectors (95_test_vectors.md 2.4). -/
def Obligations.SampleCommandWordsDecode : Prop :=
  decode 0x00000000 = .ok .nop ∧ decode 0x00000001 = .ok .setctx ∧
  decode 0x00000002 = .ok .drawtri ∧ decode 0x0000000F = .ok .reset ∧
  decode 0x00000003 = .error (.unknownOp 0x00000003) ∧
  decode 0x00000102 = .error (.reservedBits 0x00000102)

/-- R73, R74: the 33 offsets of the table, by number; a register is found at its offset and nowhere else;
the reserved offsets name no register, and they are all that is left of the aperture. -/
def Obligations.RegisterOffsetsRoundTrip : Prop :=
  (Reg.offset .cmd = 0x000 ∧ Reg.offset .status = 0x004 ∧ Reg.offset .errinfo = 0x008 ∧
    Reg.offset .fbW = 0x010 ∧ Reg.offset .fbH = 0x014 ∧ Reg.offset .shader = 0x018 ∧
    Reg.offset .color = 0x01C ∧ Reg.offset .texW = 0x020 ∧ Reg.offset .texH = 0x024) ∧
  (Reg.offset (.v 0) = 0x040 ∧ Reg.offset (.v 1) = 0x044 ∧ Reg.offset (.v 2) = 0x048 ∧
    Reg.offset (.v 3) = 0x04C ∧ Reg.offset (.v 4) = 0x050 ∧ Reg.offset (.v 5) = 0x054) ∧
  (Reg.offset (.ctm 0) = 0x060 ∧ Reg.offset (.ctm 1) = 0x064 ∧ Reg.offset (.ctm 2) = 0x068 ∧
    Reg.offset (.ctm 3) = 0x06C ∧ Reg.offset (.ctm 4) = 0x070 ∧ Reg.offset (.ctm 5) = 0x074) ∧
  (Reg.offset (.loc 0) = 0x080 ∧ Reg.offset (.loc 1) = 0x084 ∧ Reg.offset (.loc 2) = 0x088 ∧
    Reg.offset (.loc 3) = 0x08C ∧ Reg.offset (.loc 4) = 0x090 ∧ Reg.offset (.loc 5) = 0x094) ∧
  (Reg.offset (.xf 0) = 0x0A0 ∧ Reg.offset (.xf 1) = 0x0A4 ∧ Reg.offset (.xf 2) = 0x0A8 ∧
    Reg.offset (.xf 3) = 0x0AC ∧ Reg.offset (.xf 4) = 0x0B0 ∧ Reg.offset (.xf 5) = 0x0B4) ∧
  (∀ (off : Nat) (r : Reg), Reg.ofOffset off = some r ↔ r.offset = off) ∧
  ∀ off : Nat, off < 256 → off % 4 = 0 →
    (Reg.ofOffset off = none ↔ off = 0x00C ∨ (0x028 ≤ off ∧ off ≤ 0x03C) ∨ off = 0x058 ∨
      off = 0x05C ∨ off = 0x078 ∨ off = 0x07C ∨ off = 0x098 ∨ off = 0x09C ∨
      (0x0B8 ≤ off ∧ off ≤ 0x0FC))

/-- R56, R71: encoding a target as a bus address and decoding the address agree, both ways, and the
command writes decode to their commands. -/
def Obligations.BusDecodeAndEncodeAgree : Prop :=
  ∀ p : Params, p.wf = true →
    (∀ t : Target, t.wf p = true → locate p (busAddress p t) 32 = some t) ∧
    (∀ (addr width : Nat) (t : Target), locate p addr width = some t →
      width = 32 ∧ addr % 4 = 0 ∧ t.wf p = true ∧ busAddress p t = addr) ∧
    ∀ (i : Instr) (addr width : Nat) (c : Word), commandWrite p i = .write addr width c →
      locate p addr width = some (.reg 0) ∧ decode c = .ok i

/-! ## Steps and commands -/

/-- R12, R35, R81: a step whose event writes a command word runs the decoded command, on the state with
the event taken and its completion recorded. -/
def Obligations.StepRunsTheDecodedCommand : Prop :=
  ∀ (s : State) (rest : List HostEvent) (c : Word) (i : Instr), s.params.wf = true →
    s.pending = .write (busAddress s.params (.reg 0)) 32 c :: rest → decode c = .ok i →
    step s = exec i (afterEvent s rest .done)

/-- R35: a command's word put where the machine takes its next event is run by the next step. -/
def Obligations.FetchWordRunsItsCommand : Prop :=
  ∀ (s : State) (i : Instr), s.params.wf = true →
    step (s.withFetchWord 32 (encode i).toNat) = exec i (respond .done s)

/-- R180: every step and every command terminates in a next state; with no event to come the DRC does
nothing (R220). -/
def Obligations.EveryStepCompletes : Prop :=
  (∀ s : State, ∃ t, step s = .next t) ∧ (∀ (i : Instr) (s : State), ∃ t, exec i s = .next t) ∧
  ∀ s : State, s.pending = [] → step s = .next s

/-- R170: `NOP` leaves everything as it is, in every state. -/
def Obligations.NopChangesNothing : Prop := ∀ s : State, exec .nop s = .next s

/-- R171: `RESET` puts every register back to its reset value, in every state, and changes neither
memory. -/
def Obligations.ResetRestoresEveryRegister : Prop :=
  ∀ s : State, ∃ t, exec .reset s = .next t ∧
    (∀ r : Reg, readReg t r =
      if r = .ctm 0 ∨ r = .ctm 4 ∨ r = .loc 0 ∨ r = .loc 4 then 0x3F800000 else 0x00000000) ∧
    t.dm = s.dm ∧ t.tm = s.tm ∧ t.params = s.params ∧ t.powerOns = s.powerOns ∧
    t.freeCount = s.freeCount ∧ t.pending = s.pending ∧ t.responses = s.responses

/-- R205: in the fault state every command but `RESET` leaves everything as it is. -/
def Obligations.CommandsIgnoredInFaultState : Prop :=
  ∀ (i : Instr) (s : State), s.err ≠ 0 → i ≠ .reset → exec i s = .next s

/-- R201: a word that is no command, written to `CMD` out of the fault state, raises `E_CMD` with the
word and changes nothing else. -/
def Obligations.IllegalCommandRaisesECmd : Prop :=
  ∀ (s : State) (rest : List HostEvent) (c : Word), s.params.wf = true →
    s.pending = .write (busAddress s.params (.reg 0)) 32 c :: rest → s.err = 0 →
    c ≠ 0x00000000 → c ≠ 0x00000001 → c ≠ 0x00000002 → c ≠ 0x0000000F →
    step s = .next { afterEvent s rest .done with err := 1, errinfo := c }

/-- R205: in the fault state a write to `CMD` of any word but `RESET`'s has no effect. -/
def Obligations.FaultStateIgnoresCommandWords : Prop :=
  ∀ (s : State) (rest : List HostEvent) (c : Word), s.params.wf = true →
    s.pending = .write (busAddress s.params (.reg 0)) 32 c :: rest → s.err ≠ 0 →
    c ≠ 0x0000000F → step s = .next (afterEvent s rest .done)

/-- R33, R34, R206: while the DRC is in the fault state the recorded error stays, and only `RESET` or
power-on leaves it. -/
def Obligations.FaultStateLeftOnlyByReset : Prop :=
  ∀ s : State, s.err ≠ 0 → ∃ t, step s = .next t ∧
    ((t.err = s.err ∧ t.errinfo = s.errinfo) ∨ (∃ rest, s.pending = .powerOn :: rest) ∨
      ∃ addr rest, s.pending = .write addr 32 0x0000000F :: rest ∧
        locate s.params addr 32 = some (.reg 0))

/-! ## Reset values and registers -/

/-- R44: the machine right after power-on reset. What unwritten memory reads as is a free value (log
entry 4). -/
def Obligations.ResetStateHoldsResetValues : Prop :=
  (∀ r : Reg, readReg State.reset r =
    if r = .ctm 0 ∨ r = .ctm 4 ∨ r = .loc 0 ∨ r = .loc 4 then 0x3F800000 else 0x00000000) ∧
  State.reset.ctxOk = false ∧ State.reset.err = 0

/-- R220, R45: power-on reset as an event (the model's choice, log entry 3): registers at their reset
values, and every byte of both memories the free value of a new power-on. -/
def Obligations.PowerOnResetsAndForgets : Prop :=
  ∀ (s : State) (rest : List HostEvent), s.pending = .powerOn :: rest → ∃ t, step s = .next t ∧
    (∀ r : Reg, readReg t r = readReg State.reset r) ∧
    (∀ a, readByte t .dm a = Config.dmPowerOnByte (s.powerOns + 1) a) ∧
    (∀ a, readByte t .tm a = Config.tmPowerOnByte (s.powerOns + 1) a) ∧
    t.pending = rest ∧ t.responses = s.responses ∧ t.params = s.params

/-- R31: the fields of the `STATUS` word, its reserved bits, and that a host write to it is ignored. -/
def Obligations.StatusWordLayout : Prop :=
  ∀ (s : State) (w : Word),
    (readReg s .status).extractLsb' 0 1 = BitVec.ofBool s.ctxOk ∧
    (readReg s .status).extractLsb' 1 3 = 0 ∧ (readReg s .status).extractLsb' 4 4 = s.err ∧
    (readReg s .status).extractLsb' 8 24 = 0 ∧ writeReg s .status w = s

/-- R21, R24, R174: a host write to an RW register stores the whole word, in the fault state too, and
leaves every other register and both memories alone. -/
def Obligations.RegisterWriteStoresTheWord : Prop :=
  ∀ (s : State) (rest : List HostEvent) (r : Reg) (w : Word), s.params.wf = true →
    s.pending = .write (busAddress s.params (.reg r.offset)) 32 w :: rest → r.access = .rw →
    ∃ t, step s = .next t ∧ readReg t r = w ∧ (∀ q : Reg, q ≠ r → readReg t q = readReg s q) ∧
      t.dm = s.dm ∧ t.tm = s.tm ∧ t.params = s.params ∧ t.powerOns = s.powerOns ∧
      t.freeCount = s.freeCount ∧ t.pending = rest ∧ t.responses = .done :: s.responses

/-- R21, R74, R174: a host write to an RO register or to a reserved offset is ignored. -/
def Obligations.OtherRegisterWritesAreIgnored : Prop :=
  ∀ (s : State) (rest : List HostEvent) (off : Nat) (w : Word), s.params.wf = true →
    s.pending = .write (busAddress s.params (.reg off)) 32 w :: rest →
    off < 256 → off % 4 = 0 → off ≠ 0 → (∀ r : Reg, r.offset = off → r.access ≠ .rw) →
    step s = .next (afterEvent s rest .done)

/-- R175: a register read returns the register's word, 0 for `CMD` and for a reserved offset, and has no
side effect. -/
def Obligations.RegisterReadsReturnAndChangeNothing : Prop :=
  ∀ (s : State) (rest : List HostEvent) (off : Nat), s.params.wf = true →
    s.pending = .read (busAddress s.params (.reg off)) 32 :: rest → off < 256 → off % 4 = 0 →
    (∀ r : Reg, r.offset = off → r ≠ .cmd →
      step s = .next (afterEvent s rest (.data (readReg s r)))) ∧
    ((off = 0 ∨ ∀ r : Reg, r.offset ≠ off) → step s = .next (afterEvent s rest (.data 0)))

/-! ## Pixel memories and the bus -/

/-- R176, R55, R57: a host pixel write stores the word, whole, and leaves every other byte of both
memories and every register alone. -/
def Obligations.PixelWriteStoresTheWord : Prop :=
  ∀ (s : State) (rest : List HostEvent) (sp : Space) (i : Nat) (w : Word), s.params.wf = true →
    s.pending = .write (busAddress s.params (.mem sp i)) 32 w :: rest → i < pixelsOf s.params sp →
    ∃ t, step s = .next t ∧ readWord t sp i = w ∧
      (∀ (sp' : Space) (a : Nat), sp' ≠ sp ∨ a / 4 ≠ i → readByte t sp' a = readByte s sp' a) ∧
      (∀ r : Reg, readReg t r = readReg s r) ∧ t.params = s.params ∧ t.powerOns = s.powerOns ∧
      t.freeCount = s.freeCount ∧ t.pending = rest ∧ t.responses = .done :: s.responses

/-- R177: a host pixel read returns the word and has no side effect. -/
def Obligations.PixelReadReturnsTheWord : Prop :=
  ∀ (s : State) (rest : List HostEvent) (sp : Space) (i : Nat), s.params.wf = true →
    s.pending = .read (busAddress s.params (.mem sp i)) 32 :: rest → i < pixelsOf s.params sp →
    step s = .next (afterEvent s rest (.data (readWord s sp i)))

/-- R178: a transaction of another width, at another alignment or outside the three apertures gets a bus
error and changes nothing. -/
def Obligations.RefusedTransactionsChangeNothing : Prop :=
  ∀ (s : State) (rest : List HostEvent) (addr width : Nat),
    (width ≠ 32 ∨ addr % 4 ≠ 0 ∨
      ((addr < s.params.regBase ∨ s.params.regBase + 256 ≤ addr) ∧
       (addr < s.params.dmBase ∨ s.params.dmBase + 4 * s.params.dmPixels ≤ addr) ∧
       (addr < s.params.tmBase ∨ s.params.tmBase + 4 * s.params.tmPixels ≤ addr))) →
    (∀ w, s.pending = .write addr width w :: rest → step s = .next (afterEvent s rest .busError)) ∧
    (s.pending = .read addr width :: rest → step s = .next (afterEvent s rest .busError))

/-- R40: a byte of TM changes only by a host write to its word, or by power-on. -/
def Obligations.TextureChangedOnlyByTheHost : Prop :=
  ∀ s : State, ∃ t, step s = .next t ∧ ∀ a, readByte t .tm a ≠ readByte s .tm a →
    (∃ rest, s.pending = .powerOn :: rest) ∨
    ∃ addr w rest, s.pending = .write addr 32 w :: rest ∧
      locate s.params addr 32 = some (.mem .tm (a / 4))

/-! ## Floats

The primitives of the decided `NUMERICS` record (R6), `ieee`. A machine with another record computes with free
functions (log entry 13), of which nothing is stated. -/

/-- R111, R112: `fneg` inverts bit 31 and nothing else; `feq0` is true exactly on the two zeros. -/
def Obligations.NegationAndZeroTest : Prop :=
  (∀ (a : Word) (i : Nat), i < 32 →
    (ieee.fneg a).getLsbD i = if i = 31 then !a.getLsbD 31 else a.getLsbD i) ∧
  ∀ a : Word, ieee.feq0 a = true ↔ a = 0x00000000 ∨ a = 0x80000000

/-- R110: what the four operations give on a NaN, on an infinite operand and on a zero divisor: NaN, or an
infinity or a zero with its sign. (Finite operands otherwise: the four statements on rounding.) -/
def Obligations.FloatSpecialCases : Prop :=
  (∀ a b : Word, isNaN a = true ∨ isNaN b = true → isNaN (ieee.fadd a b) = true ∧
    isNaN (ieee.fsub a b) = true ∧ isNaN (ieee.fmul a b) = true ∧ isNaN (ieee.fdiv a b) = true) ∧
  (∀ a b : Word, isInf a = true → isFinite b = true →
    ieee.fadd a b = a ∧ ieee.fadd b a = a ∧ ieee.fsub a b = a ∧ ieee.fsub b a = ieee.fneg a ∧
    ieee.fdiv a b = (if signBit a = signBit b then 0x7F800000 else 0xFF800000) ∧
    ieee.fdiv b a = (if signBit a = signBit b then 0x00000000 else 0x80000000)) ∧
  (∀ a b : Word, isInf a = true → isInf b = true →
    (a = b → ieee.fadd a b = a ∧ isNaN (ieee.fsub a b) = true) ∧
    (a ≠ b → isNaN (ieee.fadd a b) = true ∧ ieee.fsub a b = a) ∧ isNaN (ieee.fdiv a b) = true) ∧
  (∀ a b : Word, isInf a = true → isNaN b = false →
    (ieee.feq0 b = true → isNaN (ieee.fmul a b) = true ∧ isNaN (ieee.fmul b a) = true) ∧
    (ieee.feq0 b = false →
      ieee.fmul a b = (if signBit a = signBit b then 0x7F800000 else 0xFF800000) ∧
      ieee.fmul b a = (if signBit a = signBit b then 0x7F800000 else 0xFF800000))) ∧
  (∀ a z : Word, isFinite a = true → ieee.feq0 a = false → ieee.feq0 z = true →
    ieee.fdiv a z = if signBit a = signBit z then 0x7F800000 else 0xFF800000) ∧
  ∀ y z : Word, ieee.feq0 y = true → ieee.feq0 z = true → isNaN (ieee.fdiv y z) = true

/-- R113: `i2f` and the pixel centre are exact for 0 to 65535 (in units of 2^−149). -/
def Obligations.SmallIntegersAndCentresAreExact : Prop :=
  ∀ n : Nat, n ≤ 65535 →
    isFinite (ieee.i2f n) = true ∧ unitsOf (ieee.i2f n) = (n : Int) * 2 ^ 149 ∧
    isFinite (ieee.fadd (ieee.i2f n) 0x3F000000) = true ∧
    unitsOf (ieee.fadd (ieee.i2f n) 0x3F000000) = (2 * (n : Int) + 1) * 2 ^ 148

/-- R110: the sum of two finite values is rounded once, to nearest, ties to even; it overflows to infinity;
an exact zero sum is −0 only for two negative zeros. -/
def Obligations.AdditionIsCorrectlyRounded : Prop :=
  ∀ a b : Word, isFinite a = true → isFinite b = true →
    correctlyRounded (ieee.fadd a b) 1 (unitsOf a + unitsOf b)
      (if unitsOf a + unitsOf b = 0 then signBit a && signBit b else decide (unitsOf a + unitsOf b < 0))

/-- R110: the difference of two finite values, first minus second, is rounded once, to nearest, ties to even;
it overflows to infinity; an exact zero difference is −0 only for −0 minus +0. -/
def Obligations.SubtractionIsCorrectlyRounded : Prop :=
  ∀ a b : Word, isFinite a = true → isFinite b = true →
    correctlyRounded (ieee.fsub a b) 1 (unitsOf a - unitsOf b)
      (if unitsOf a - unitsOf b = 0 then signBit a && !signBit b
        else decide (unitsOf a - unitsOf b < 0))

/-- R110: the product of two finite values is rounded once, to nearest, ties to even; it overflows to
infinity; its sign, that of a zero too, is negative where the signs differ. -/
def Obligations.MultiplicationIsCorrectlyRounded : Prop :=
  ∀ a b : Word, isFinite a = true → isFinite b = true →
    correctlyRounded (ieee.fmul a b) (2 ^ 149) (unitsOf a * unitsOf b) (signBit a != signBit b)

/-- R110: the quotient of two finite values, the divisor not zero, is rounded once, to nearest, ties to even;
it overflows to infinity; its sign, that of a zero too, is negative where the signs differ. -/
def Obligations.DivisionIsCorrectlyRounded : Prop :=
  ∀ a b : Word, isFinite a = true → isFinite b = true → unitsOf b ≠ 0 →
    correctlyRounded (ieee.fdiv a b) (unitsOf b) (unitsOf a * 2 ^ 149) (signBit a != signBit b)

/-! ## Shader engine -/

/-- R118: in colour mode `SET_CONTEXT`, and so `SETCTX`, sets `CTX_OK` and changes nothing else. -/
def Obligations.SetctxColourModeSucceeds : Prop :=
  ∀ s : State, s.shader.toNat = 0 →
    setContext s = { s with ctxOk := true } ∧
    (s.err = 0 → exec .setctx s = .next { s with ctxOk := true })

/-- R116: `SETCTX` with an unknown shader mode raises `E_CFG(1)` and changes nothing else. -/
def Obligations.SetctxUnknownModeRaisesECfg : Prop :=
  ∀ s : State, s.err = 0 → 1 < s.shader.toNat →
    exec .setctx s = .next { s with err := 2, errinfo := 1 }

/-- R119, R120: in bitmap mode `SETCTX` computes the product `P` and its determinant in the spec's nesting,
with the machine's `NUMERICS` record `n`; a determinant that tests as zero clears `CTX_OK` and changes nothing
else; any other sets `CTX_OK` and loads the six `XF` registers with the inverse, entry by entry (a NaN result
as some NaN, R29, log entry 6), and changes no other register and neither memory. That the model's own count of
free values goes up by one is its choice (log entry 12). -/
def Obligations.SetctxBitmapModeLoadsTheInverse : Prop :=
  ∀ (s : State) (n : Numerics) (a b c d e f det : Word), s.err = 0 → s.shader.toNat = 1 →
    n = numericsOf s.params.numerics →
    a = n.fadd (n.fmul s.ctm.a s.loc.a) (n.fmul s.ctm.b s.loc.d) →
    b = n.fadd (n.fmul s.ctm.a s.loc.b) (n.fmul s.ctm.b s.loc.e) →
    c = n.fadd (n.fadd (n.fmul s.ctm.a s.loc.c) (n.fmul s.ctm.b s.loc.f)) s.ctm.c →
    d = n.fadd (n.fmul s.ctm.d s.loc.a) (n.fmul s.ctm.e s.loc.d) →
    e = n.fadd (n.fmul s.ctm.d s.loc.b) (n.fmul s.ctm.e s.loc.e) →
    f = n.fadd (n.fadd (n.fmul s.ctm.d s.loc.c) (n.fmul s.ctm.e s.loc.f)) s.ctm.f →
    det = n.fsub (n.fmul a e) (n.fmul b d) →
    (n.feq0 det = true → exec .setctx s = .next { s with ctxOk := false }) ∧
    (n.feq0 det = false → ∃ x : Affine,
      exec .setctx s = .next { s with ctxOk := true, xf := x, freeCount := s.freeCount + 1 } ∧
      storedAs (n.fdiv e det) x.a ∧ storedAs (n.fdiv (n.fneg b) det) x.b ∧
      storedAs (n.fdiv (n.fsub (n.fmul b f) (n.fmul c e)) det) x.c ∧
      storedAs (n.fdiv (n.fneg d) det) x.d ∧ storedAs (n.fdiv a det) x.e ∧
      storedAs (n.fdiv (n.fsub (n.fmul c d) (n.fmul a f)) det) x.f)

/-- R121 (b), for the decided record: a determinant that is not finite is not singular. A NaN one makes every
`XF` register a NaN; an infinite one makes every `XF` register a zero or a NaN. -/
def Obligations.NonFiniteDeterminantIsUsable : Prop :=
  ∀ s : State, s.err = 0 → s.shader.toNat = 1 → s.params.numerics = .binary32 →
    (isNaN (matDet ieee (matMul ieee s.ctm s.loc)) = true → ∃ t, exec .setctx s = .next t ∧
      t.ctxOk = true ∧ ∀ k : Fin 6, isNaN (readReg t (.xf k)) = true) ∧
    (isInf (matDet ieee (matMul ieee s.ctm s.loc)) = true → ∃ t, exec .setctx s = .next t ∧
      t.ctxOk = true ∧ ∀ k : Fin 6, readReg t (.xf k) = 0x00000000 ∨
        readReg t (.xf k) = 0x80000000 ∨ isNaN (readReg t (.xf k)) = true)

/-- R124: a row in colour mode is `count` copies of `COLOR`. -/
def Obligations.ColourRowRepeatsTheColour : Prop :=
  ∀ (s : State) (x y n : Nat), s.shader.toNat = 0 →
    (shadeRow s x y n).length = n ∧ ∀ i, i < n → (shadeRow s x y n)[i]? = some s.color

/-- R127: the texel index of a coordinate is its floor, a member of the `NUMERICS` record, clamped to the
texture; minus infinity gives 0, plus infinity the last index, a NaN `NAN_INDEX`. For the decided record the
floor is that of the exact value. -/
def Obligations.TexelIndexIsTheClampedFloor : Prop :=
  (∀ (r : Numerics) (nanIndex n : Nat) (t : Word), 1 ≤ n → nanIndex < n →
    texIdx r nanIndex t n < n ∧
    (isNaN t = true → texIdx r nanIndex t n = nanIndex) ∧
    texIdx r nanIndex 0xFF800000 n = 0 ∧ texIdx r nanIndex 0x7F800000 n = n - 1 ∧
    (isFinite t = true →
      (texIdx r nanIndex t n : Int) = max 0 (min (r.ffloor t) ((n : Int) - 1)))) ∧
  ∀ t : Word, isFinite t = true → ieee.ffloor t = unitsOf t / 2 ^ 149

/-- R126, R128: a row in bitmap mode has `count` pixels, and pixel `i` is the texel at the start coordinates
stepped `i` times by `(XF0, XF3)`, all with the machine's `NUMERICS` record `r`. -/
def Obligations.BitmapRowStepsItsCoordinates : Prop :=
  ∀ (s : State) (r : Numerics) (x y n i : Nat) (fx fy u v : Word), s.shader.toNat = 1 → i < n →
    r = numericsOf s.params.numerics →
    fx = r.fadd (r.i2f x) 0x3F000000 → fy = r.fadd (r.i2f y) 0x3F000000 →
    u = (fun w => r.fadd w s.xf.a)^[i]
      (r.fadd (r.fadd (r.fmul s.xf.a fx) (r.fmul s.xf.b fy)) s.xf.c) →
    v = (fun w => r.fadd w s.xf.d)^[i]
      (r.fadd (r.fadd (r.fmul s.xf.d fx) (r.fmul s.xf.e fy)) s.xf.f) →
    (shadeRow s x y n).length = n ∧
    (shadeRow s x y n)[i]? = some (readWord s .tm (texIdx r s.params.nanIndex u s.texW.toNat +
      texIdx r s.params.nanIndex v s.texH.toNat * s.texW.toNat))

/-- R129 (a), for the decided record: under the identity mapping a row samples the texels at matching
coordinates, clamped to the edge. -/
def Obligations.IdentityMappingSamplesMatchingTexels : Prop :=
  ∀ (s : State) (x y n i : Nat), s.shader.toNat = 1 → s.params.numerics = .binary32 →
    s.xf.a = 0x3F800000 → (s.xf.b = 0x00000000 ∨ s.xf.b = 0x80000000) → s.xf.c = 0x00000000 →
    (s.xf.d = 0x00000000 ∨ s.xf.d = 0x80000000) → s.xf.e = 0x3F800000 → s.xf.f = 0x00000000 →
    1 ≤ s.texW.toNat → 1 ≤ s.texH.toNat → s.texW.toNat ≤ 65535 → s.texH.toNat ≤ 65535 →
    x + n ≤ 65535 → y < 65535 → i < n →
    (shadeRow s x y n)[i]? = some (readWord s .tm
      (min (x + i) (s.texW.toNat - 1) + min y (s.texH.toNat - 1) * s.texW.toNat))

/-! ## Blender -/

/-- R100, R102: the magic-constant form is the rounded division by 255 on its whole domain, and each blended
channel that fits is the source channel plus the destination channel scaled by `255 − S.a`, so divided,
whatever the other channels are. -/
def Obligations.BlendIsRoundedDivision : Prop :=
  (∀ v : Nat, v ≤ 65025 → (v * 65793 + 2 ^ 23) >>> 24 = (v + 127) / 255) ∧
  ∀ (fa fr fg fb : Byte) (s d : Word),
    (chA s + ((255 - chA s) * chA d + 127) / 255 ≤ 255 →
      chA (blend fa fr fg fb s d) = chA s + ((255 - chA s) * chA d + 127) / 255) ∧
    (chR s + ((255 - chA s) * chR d + 127) / 255 ≤ 255 →
      chR (blend fa fr fg fb s d) = chR s + ((255 - chA s) * chR d + 127) / 255) ∧
    (chG s + ((255 - chA s) * chG d + 127) / 255 ≤ 255 →
      chG (blend fa fr fg fb s d) = chG s + ((255 - chA s) * chG d + 127) / 255) ∧
    (chB s + ((255 - chA s) * chB d + 127) / 255 ≤ 255 →
      chB (blend fa fr fg fb s d) = chB s + ((255 - chA s) * chB d + 127) / 255)

/-- R103, R104: an opaque source replaces the destination; the transparent pixel leaves it. -/
def Obligations.OpaqueReplacesAndTransparentKeeps : Prop :=
  ∀ (fa fr fg fb : Byte) (s d : Word),
    (chA s = 255 → blend fa fr fg fb s d = s) ∧ blend fa fr fg fb 0x00000000 d = d

/-- R105: a valid source never overflows a channel (the result does not depend on the free values), and
over a valid destination it gives a valid pixel. -/
def Obligations.BlendOfValidPixelsIsValid : Prop :=
  ∀ (fa fr fg fb ga gr gg gb : Byte) (s d : Word), validPixel s = true →
    blend fa fr fg fb s d = blend ga gr gg gb s d ∧
    (validPixel d = true → validPixel (blend fa fr fg fb s d) = true)

/-! ## Rasterizer: conversion and setup -/

/-- R144: `FIX` answers `X` exactly when the word is finite and `X` is the 32-bit integer nearest to 16
times its value, ties to even (the value in units of 2^−149). -/
def Obligations.FixIsSixteenTimesRoundedToEven : Prop :=
  ∀ (w : Word) (x : Int), fix .halfEven w = some x ↔
    isFinite w = true ∧ -2 ^ 31 ≤ x ∧ x ≤ 2 ^ 31 - 1 ∧
    2 * |x * 2 ^ 145 - unitsOf w| ≤ 2 ^ 145 ∧
    (2 * |x * 2 ^ 145 - unitsOf w| = 2 ^ 145 → x % 2 = 0)

/-- R226: the words `FIX` accepts. -/
def Obligations.FixAcceptsExactlyTheWordsInRange : Prop :=
  ∀ w : Word, (fix .halfEven w).isSome = true ↔
    w.toNat ≤ 0x4CFFFFFF ∨ (0x80000000 ≤ w.toNat ∧ w.toNat ≤ 0xCD000000)

/-- R146: the pixel bounds by the formula (`/` on integers is the floor), and as ceilings: the
columns from `xmin0` to `xmax0 − 1` are exactly the integers `x` with `min(X)/16 ≤ x < max(X)/16`, and
likewise the rows. -/
def Obligations.BoundsAreTheIntegersInside : Prop :=
  ∀ (t : Fixed) (p : Int),
    (rawBounds t).xmin = (min (min t.x1 t.x2) t.x3 + 15) / 16 ∧
    (rawBounds t).xmax = (max (max t.x1 t.x2) t.x3 + 15) / 16 ∧
    (rawBounds t).ymin = (min (min t.y1 t.y2) t.y3 + 15) / 16 ∧
    (rawBounds t).ymax = (max (max t.y1 t.y2) t.y3 + 15) / 16 ∧
    ((rawBounds t).xmin ≤ p ∧ p < (rawBounds t).xmax ↔
      (t.x1 ≤ 16 * p ∨ t.x2 ≤ 16 * p ∨ t.x3 ≤ 16 * p) ∧
      (16 * p < t.x1 ∨ 16 * p < t.x2 ∨ 16 * p < t.x3)) ∧
    ((rawBounds t).ymin ≤ p ∧ p < (rawBounds t).ymax ↔
      (t.y1 ≤ 16 * p ∨ t.y2 ≤ 16 * p ∨ t.y3 ≤ 16 * p) ∧
      (16 * p < t.y1 ∨ 16 * p < t.y2 ∨ 16 * p < t.y3))

/-- R152: `i` pixel steps and `j` row steps from the start values leave the closed form in each
accumulator. -/
def Obligations.AccumulatorsHoldTheClosedForm : Prop :=
  ∀ (es : Edges) (b : Bounds) (i j : Nat),
    (accStepX es)^[i] ((accStepY es)^[j] (accStart es b)) =
      { k1 := es.e12.c + es.e12.dx * (16 * (b.ymin + j)) - es.e12.dy * (16 * (b.xmin + i))
        k2 := es.e23.c + es.e23.dx * (16 * (b.ymin + j)) - es.e23.dy * (16 * (b.xmin + i))
        k3 := es.e31.c + es.e31.dx * (16 * (b.ymin + j)) - es.e31.dy * (16 * (b.xmin + i)) }

/-- R153: for 32-bit coordinates and pixels of the largest canvas every edge value fits 66 bits. -/
def Obligations.EdgeValuesFitSixtySixBits : Prop :=
  ∀ xi yi xj yj x y : Int, -2 ^ 31 ≤ xi → xi ≤ 2 ^ 31 - 1 → -2 ^ 31 ≤ yi → yi ≤ 2 ^ 31 - 1 →
    -2 ^ 31 ≤ xj → xj ≤ 2 ^ 31 - 1 → -2 ^ 31 ≤ yj → yj ≤ 2 ^ 31 - 1 →
    0 ≤ x → x ≤ 65535 → 0 ≤ y → y ≤ 65535 →
    -2 ^ 65 < edgeValue (mkEdge xi yi xj yj) x y ∧ edgeValue (mkEdge xi yi xj yj) x y < 2 ^ 65

/-- R162: of the two directions of an edge between different points, exactly one has a given sample point
inside, so two triangles that share an edge, traversed in opposite directions, cover no pixel both, whichever
edge `i` of the one and edge `j` of the other it is. -/
def Obligations.SharedEdgeIsOwnedOnce : Prop :=
  (∀ xi yi xj yj x y : Int, xi ≠ xj ∨ yi ≠ yj →
    (edgeValue (mkEdge xi yi xj yj) x y < 0 ↔ ¬ edgeValue (mkEdge xj yj xi yi) x y < 0)) ∧
  ∀ (t u : Fixed) (i j : Fin 3), corner t i = corner u (j + 1) → corner t (i + 1) = corner u j →
    ∀ x y : Int, ¬ (insideEdges (mkEdges t) x y ∧ insideEdges (mkEdges u) x y)

/-! ## Rasterizer: DRAWTRI -/

/-- R142: the six configuration checks in their order; the first that fails raises `E_CFG` with its number
and changes nothing else, and when none fails the draw goes on to `SET_CONTEXT`. -/
def Obligations.DrawConfigurationErrors : Prop :=
  ∀ s : State, s.err = 0 →
    (configured s → exec .drawtri s = .next (drawAfterContext (setContext s))) ∧
    (1 < s.shader.toNat → exec .drawtri s = .next { s with err := 2, errinfo := 1 }) ∧
    (s.shader.toNat ≤ 1 →
      (65535 < s.fbW.toNat ∨ 65535 < s.fbH.toNat →
        exec .drawtri s = .next { s with err := 2, errinfo := 2 }) ∧
      (s.fbW.toNat ≤ 65535 → s.fbH.toNat ≤ 65535 →
        (s.params.dmPixels < s.fbW.toNat * s.fbH.toNat →
          exec .drawtri s = .next { s with err := 2, errinfo := 3 }) ∧
        (s.fbW.toNat * s.fbH.toNat ≤ s.params.dmPixels → s.shader.toNat = 1 →
          (s.texW.toNat = 0 ∨ s.texH.toNat = 0 →
            exec .drawtri s = .next { s with err := 2, errinfo := 4 }) ∧
          (s.texW.toNat ≠ 0 → s.texH.toNat ≠ 0 →
            (65535 < s.texW.toNat ∨ 65535 < s.texH.toNat →
              exec .drawtri s = .next { s with err := 2, errinfo := 5 }) ∧
            (s.texW.toNat ≤ 65535 → s.texH.toNat ≤ 65535 →
              s.params.tmPixels < s.texW.toNat * s.texH.toNat →
              exec .drawtri s = .next { s with err := 2, errinfo := 6 })))))

/-- R141: when `SET_CONTEXT` clears `CTX_OK` the draw is skipped: no error, whatever the vertices are, and
nothing but `CTX_OK` changes. -/
def Obligations.SingularTransformSkipsTheDraw : Prop :=
  ∀ s : State, s.err = 0 → configured s → ¬ usable s →
    exec .drawtri s = .next { s with ctxOk := false }

/-- R143, R203: the first coordinate register, in order, that cannot be converted raises `E_VTX` with its
position, after `SET_CONTEXT` and with both memories unchanged. -/
def Obligations.FirstBadVertexRaisesEVtx : Prop :=
  ∀ (s : State) (k : Nat) (w : Word), s.err = 0 → configured s → usable s →
    [s.vtx.x1, s.vtx.y1, s.vtx.x2, s.vtx.y2, s.vtx.x3, s.vtx.y3][k]? = some w →
    fix s.params.vtxRound w = none →
    (∀ j q, j < k → [s.vtx.x1, s.vtx.y1, s.vtx.x2, s.vtx.y2, s.vtx.x3, s.vtx.y3][j]? = some q →
      fix s.params.vtxRound q ≠ none) →
    ∃ t, exec .drawtri s = .next t ∧
      t = { setContext s with err := 3, errinfo := BitVec.ofNat 32 k } ∧
      t.dm = s.dm ∧ t.tm = s.tm

/-- R148: with the clipped bounds empty the draw ends after `SET_CONTEXT`, without an error and with both
memories unchanged. -/
def Obligations.EmptyBoundsDrawNothing : Prop :=
  ∀ (s : State) (t : Fixed), s.err = 0 → configured s → usable s →
    fixVertices s.params.vtxRound s.vtx = .ok t →
    ((boundsOn s t).xmax ≤ (boundsOn s t).xmin ∨ (boundsOn s t).ymax ≤ (boundsOn s t).ymin) →
    exec .drawtri s = .next (setContext s) ∧ (setContext s).dm = s.dm ∧
      (setContext s).tm = s.tm ∧ (setContext s).err = 0

/-- R159: the net effect of a draw. Every covered pixel inside the clipped bounds becomes the blend of its
shaded pixel over the word it held, in colour mode of `COLOR` (and then `XF` stays too); every other byte of DM,
all of TM and every register but `STATUS` and `XF`, which `SET_CONTEXT` writes, are as they were before the
command. The bytes of overflowing channels (in `blendAt`) are free values (log entry 5), and that the model's
own count of free values goes up by one more is its choice (log entry 12). -/
def Obligations.DrawNetEffect : Prop :=
  ∀ (s : State) (t : Fixed), s.err = 0 → configured s → usable s →
    fixVertices s.params.vtxRound s.vtx = .ok t →
    (boundsOn s t).xmin < (boundsOn s t).xmax → (boundsOn s t).ymin < (boundsOn s t).ymax →
    ∃ u, exec .drawtri s = .next u ∧
      u = { setContext s with dm := u.dm, freeCount := (setContext s).freeCount + 1 } ∧
      (u.tm = s.tm ∧ u.ctxOk = true ∧ u.err = 0 ∧ u.params = s.params ∧ u.powerOns = s.powerOns ∧
        u.pending = s.pending ∧ u.responses = s.responses ∧
        ∀ r : Reg, r ≠ .status → (∀ k, r ≠ .xf k) → readReg u r = readReg s r) ∧
      (∀ x y p, drawnPixel s t x y →
        (shadeRow (setContext s) (boundsOn s t).xmin.toNat y
          ((boundsOn s t).xmax - (boundsOn s t).xmin).toNat)[x - (boundsOn s t).xmin.toNat]? = some p →
        readWord u .dm (x + y * s.fbW.toNat) =
          blendAt (setContext s).freeCount (x + y * s.fbW.toNat) p
            (readWord s .dm (x + y * s.fbW.toNat))) ∧
      (s.shader.toNat = 0 → u.xf = s.xf ∧ ∀ x y, drawnPixel s t x y →
        readWord u .dm (x + y * s.fbW.toNat) =
          blendAt s.freeCount (x + y * s.fbW.toNat) s.color
            (readWord s .dm (x + y * s.fbW.toNat))) ∧
      (∀ a, (∀ x y, drawnPixel s t x y → a / 4 ≠ x + y * s.fbW.toNat) →
        readByte u .dm a = readByte s .dm a)

/-- R25, R140, R164: `DRAWTRI` writes no RW register and not TM, and a draw that ends in the fault state
leaves DM as it was. -/
def Obligations.DrawLeavesRegistersAndTexture : Prop :=
  ∀ s : State, ∃ u, exec .drawtri s = .next u ∧ u.tm = s.tm ∧
    (∀ r : Reg, r.access = .rw → readReg u r = readReg s r) ∧ (u.err ≠ 0 → u.dm = s.dm) ∧
    u.params = s.params ∧ u.powerOns = s.powerOns ∧ u.pending = s.pending ∧
    u.responses = s.responses

/-- R58: a draw changes no byte of DM at or beyond the canvas, and none at all when the canvas does not
fit DM. -/
def Obligations.DrawStaysInsideTheCanvas : Prop :=
  ∀ s : State, ∃ u, exec .drawtri s = .next u ∧ ∀ a, readByte u .dm a ≠ readByte s .dm a →
    a / 4 < s.fbW.toNat * s.fbH.toNat ∧ s.fbW.toNat * s.fbH.toNat ≤ s.params.dmPixels

/-- R160, R161: a triangle whose signed area is not positive covers no pixel, and its draw changes no byte
of DM. -/
def Obligations.NonPositiveAreaDrawsNothing : Prop :=
  (∀ t : Fixed, signedArea t ≤ 0 → ∀ x y : Int, ¬ insideEdges (mkEdges t) x y) ∧
  ∀ (s : State) (t : Fixed), fixVertices s.params.vtxRound s.vtx = .ok t → signedArea t ≤ 0 →
    ∃ u, exec .drawtri s = .next u ∧ ∀ a, readByte u .dm a = readByte s .dm a

/-- R104, R207: a draw in colour mode with the transparent colour changes no byte of DM. -/
def Obligations.TransparentColourChangesNoPixel : Prop :=
  ∀ s : State, s.shader.toNat = 0 → s.color = 0x00000000 →
    ∃ u, exec .drawtri s = .next u ∧ ∀ a, readByte u .dm a = readByte s .dm a

/-- R228: if `COLOR`, TM and DM are valid, DM stays valid under every draw. -/
def Obligations.DrawKeepsImagesValid : Prop :=
  ∀ s : State, validImages s → ∃ u, exec .drawtri s = .next u ∧ validImages u

/-! ## The invariant -/

/-- R33, R34, R57, R58: every step from a state that meets the invariant gives a state that meets it. -/
def Obligations.EveryStepKeepsTheInvariant : Prop :=
  ∀ s t : State, Inv s → step s = .next t → Inv t

/-- R44: the reset state meets the invariant. -/
def Obligations.ResetMeetsTheInvariant : Prop := Inv State.reset

/-- R6, R13: the parameters are no state: no step changes them. -/
def Obligations.StepsKeepTheParameters : Prop :=
  ∀ s : State, ∃ t, step s = .next t ∧ t.params = s.params
end

