-- ==== Sys2Proof/Laws/State.lean ====
section
/-! SUPPORT. One lemma per field per update of the state. -/

namespace Sys2Proof.Machine

/-! ### `setCtxOk` -/

@[simp] theorem setCtxOk_params (b : Bool) (s : State) : (setCtxOk b s).params = s.params := rfl
@[simp] theorem setCtxOk_ctxOk (b : Bool) (s : State) : (setCtxOk b s).ctxOk = b := rfl
@[simp] theorem setCtxOk_err (b : Bool) (s : State) : (setCtxOk b s).err = s.err := rfl
@[simp] theorem setCtxOk_errinfo (b : Bool) (s : State) : (setCtxOk b s).errinfo = s.errinfo := rfl
@[simp] theorem setCtxOk_fbW (b : Bool) (s : State) : (setCtxOk b s).fbW = s.fbW := rfl
@[simp] theorem setCtxOk_fbH (b : Bool) (s : State) : (setCtxOk b s).fbH = s.fbH := rfl
@[simp] theorem setCtxOk_shader (b : Bool) (s : State) : (setCtxOk b s).shader = s.shader := rfl
@[simp] theorem setCtxOk_color (b : Bool) (s : State) : (setCtxOk b s).color = s.color := rfl
@[simp] theorem setCtxOk_texW (b : Bool) (s : State) : (setCtxOk b s).texW = s.texW := rfl
@[simp] theorem setCtxOk_texH (b : Bool) (s : State) : (setCtxOk b s).texH = s.texH := rfl
@[simp] theorem setCtxOk_vtx (b : Bool) (s : State) : (setCtxOk b s).vtx = s.vtx := rfl
@[simp] theorem setCtxOk_ctm (b : Bool) (s : State) : (setCtxOk b s).ctm = s.ctm := rfl
@[simp] theorem setCtxOk_loc (b : Bool) (s : State) : (setCtxOk b s).loc = s.loc := rfl
@[simp] theorem setCtxOk_xf (b : Bool) (s : State) : (setCtxOk b s).xf = s.xf := rfl
@[simp] theorem setCtxOk_dm (b : Bool) (s : State) : (setCtxOk b s).dm = s.dm := rfl
@[simp] theorem setCtxOk_tm (b : Bool) (s : State) : (setCtxOk b s).tm = s.tm := rfl
@[simp] theorem setCtxOk_powerOns (b : Bool) (s : State) : (setCtxOk b s).powerOns = s.powerOns := rfl
@[simp] theorem setCtxOk_freeCount (b : Bool) (s : State) : (setCtxOk b s).freeCount = s.freeCount := rfl
@[simp] theorem setCtxOk_pending (b : Bool) (s : State) : (setCtxOk b s).pending = s.pending := rfl
@[simp] theorem setCtxOk_responses (b : Bool) (s : State) : (setCtxOk b s).responses = s.responses := rfl

/-! ### `raise` -/

@[simp] theorem raise_params (c : ErrCode) (w : Word) (s : State) : (raise c w s).params = s.params := rfl
@[simp] theorem raise_ctxOk (c : ErrCode) (w : Word) (s : State) : (raise c w s).ctxOk = s.ctxOk := rfl
@[simp] theorem raise_err (c : ErrCode) (w : Word) (s : State) : (raise c w s).err = errField c := rfl
@[simp] theorem raise_errinfo (c : ErrCode) (w : Word) (s : State) : (raise c w s).errinfo = w := rfl
@[simp] theorem raise_fbW (c : ErrCode) (w : Word) (s : State) : (raise c w s).fbW = s.fbW := rfl
@[simp] theorem raise_fbH (c : ErrCode) (w : Word) (s : State) : (raise c w s).fbH = s.fbH := rfl
@[simp] theorem raise_shader (c : ErrCode) (w : Word) (s : State) : (raise c w s).shader = s.shader := rfl
@[simp] theorem raise_color (c : ErrCode) (w : Word) (s : State) : (raise c w s).color = s.color := rfl
@[simp] theorem raise_texW (c : ErrCode) (w : Word) (s : State) : (raise c w s).texW = s.texW := rfl
@[simp] theorem raise_texH (c : ErrCode) (w : Word) (s : State) : (raise c w s).texH = s.texH := rfl
@[simp] theorem raise_vtx (c : ErrCode) (w : Word) (s : State) : (raise c w s).vtx = s.vtx := rfl
@[simp] theorem raise_ctm (c : ErrCode) (w : Word) (s : State) : (raise c w s).ctm = s.ctm := rfl
@[simp] theorem raise_loc (c : ErrCode) (w : Word) (s : State) : (raise c w s).loc = s.loc := rfl
@[simp] theorem raise_xf (c : ErrCode) (w : Word) (s : State) : (raise c w s).xf = s.xf := rfl
@[simp] theorem raise_dm (c : ErrCode) (w : Word) (s : State) : (raise c w s).dm = s.dm := rfl
@[simp] theorem raise_tm (c : ErrCode) (w : Word) (s : State) : (raise c w s).tm = s.tm := rfl
@[simp] theorem raise_powerOns (c : ErrCode) (w : Word) (s : State) : (raise c w s).powerOns = s.powerOns := rfl
@[simp] theorem raise_freeCount (c : ErrCode) (w : Word) (s : State) : (raise c w s).freeCount = s.freeCount := rfl
@[simp] theorem raise_pending (c : ErrCode) (w : Word) (s : State) : (raise c w s).pending = s.pending := rfl
@[simp] theorem raise_responses (c : ErrCode) (w : Word) (s : State) : (raise c w s).responses = s.responses := rfl

/-! ### `resetRegisters` -/

@[simp] theorem resetRegisters_params (s : State) : (resetRegisters s).params = s.params := rfl
@[simp] theorem resetRegisters_ctxOk (s : State) : (resetRegisters s).ctxOk = false := rfl
@[simp] theorem resetRegisters_err (s : State) : (resetRegisters s).err = 0 := rfl
@[simp] theorem resetRegisters_errinfo (s : State) : (resetRegisters s).errinfo = 0 := rfl
@[simp] theorem resetRegisters_fbW (s : State) : (resetRegisters s).fbW = 0 := rfl
@[simp] theorem resetRegisters_fbH (s : State) : (resetRegisters s).fbH = 0 := rfl
@[simp] theorem resetRegisters_shader (s : State) : (resetRegisters s).shader = 0 := rfl
@[simp] theorem resetRegisters_color (s : State) : (resetRegisters s).color = 0 := rfl
@[simp] theorem resetRegisters_texW (s : State) : (resetRegisters s).texW = 0 := rfl
@[simp] theorem resetRegisters_texH (s : State) : (resetRegisters s).texH = 0 := rfl
@[simp] theorem resetRegisters_vtx (s : State) : (resetRegisters s).vtx = Vertices.zero := rfl
@[simp] theorem resetRegisters_ctm (s : State) : (resetRegisters s).ctm = Affine.identity := rfl
@[simp] theorem resetRegisters_loc (s : State) : (resetRegisters s).loc = Affine.identity := rfl
@[simp] theorem resetRegisters_xf (s : State) : (resetRegisters s).xf = Affine.zero := rfl
@[simp] theorem resetRegisters_dm (s : State) : (resetRegisters s).dm = s.dm := rfl
@[simp] theorem resetRegisters_tm (s : State) : (resetRegisters s).tm = s.tm := rfl
@[simp] theorem resetRegisters_powerOns (s : State) : (resetRegisters s).powerOns = s.powerOns := rfl
@[simp] theorem resetRegisters_freeCount (s : State) : (resetRegisters s).freeCount = s.freeCount := rfl
@[simp] theorem resetRegisters_pending (s : State) : (resetRegisters s).pending = s.pending := rfl
@[simp] theorem resetRegisters_responses (s : State) : (resetRegisters s).responses = s.responses := rfl

/-! ### `powerOnReset` -/

@[simp] theorem powerOnReset_params (s : State) : (powerOnReset s).params = s.params := rfl
@[simp] theorem powerOnReset_ctxOk (s : State) : (powerOnReset s).ctxOk = false := rfl
@[simp] theorem powerOnReset_err (s : State) : (powerOnReset s).err = 0 := rfl
@[simp] theorem powerOnReset_errinfo (s : State) : (powerOnReset s).errinfo = 0 := rfl
@[simp] theorem powerOnReset_fbW (s : State) : (powerOnReset s).fbW = 0 := rfl
@[simp] theorem powerOnReset_fbH (s : State) : (powerOnReset s).fbH = 0 := rfl
@[simp] theorem powerOnReset_shader (s : State) : (powerOnReset s).shader = 0 := rfl
@[simp] theorem powerOnReset_color (s : State) : (powerOnReset s).color = 0 := rfl
@[simp] theorem powerOnReset_texW (s : State) : (powerOnReset s).texW = 0 := rfl
@[simp] theorem powerOnReset_texH (s : State) : (powerOnReset s).texH = 0 := rfl
@[simp] theorem powerOnReset_vtx (s : State) : (powerOnReset s).vtx = Vertices.zero := rfl
@[simp] theorem powerOnReset_ctm (s : State) : (powerOnReset s).ctm = Affine.identity := rfl
@[simp] theorem powerOnReset_loc (s : State) : (powerOnReset s).loc = Affine.identity := rfl
@[simp] theorem powerOnReset_xf (s : State) : (powerOnReset s).xf = Affine.zero := rfl
@[simp] theorem powerOnReset_dm (s : State) : (powerOnReset s).dm = [] := rfl
@[simp] theorem powerOnReset_tm (s : State) : (powerOnReset s).tm = [] := rfl
@[simp] theorem powerOnReset_powerOns (s : State) : (powerOnReset s).powerOns = s.powerOns + 1 := rfl
@[simp] theorem powerOnReset_freeCount (s : State) : (powerOnReset s).freeCount = s.freeCount := rfl
@[simp] theorem powerOnReset_pending (s : State) : (powerOnReset s).pending = s.pending := rfl
@[simp] theorem powerOnReset_responses (s : State) : (powerOnReset s).responses = s.responses := rfl

/-! ### `respond` -/

@[simp] theorem respond_params (r : Response) (s : State) : (respond r s).params = s.params := rfl
@[simp] theorem respond_ctxOk (r : Response) (s : State) : (respond r s).ctxOk = s.ctxOk := rfl
@[simp] theorem respond_err (r : Response) (s : State) : (respond r s).err = s.err := rfl
@[simp] theorem respond_errinfo (r : Response) (s : State) : (respond r s).errinfo = s.errinfo := rfl
@[simp] theorem respond_fbW (r : Response) (s : State) : (respond r s).fbW = s.fbW := rfl
@[simp] theorem respond_fbH (r : Response) (s : State) : (respond r s).fbH = s.fbH := rfl
@[simp] theorem respond_shader (r : Response) (s : State) : (respond r s).shader = s.shader := rfl
@[simp] theorem respond_color (r : Response) (s : State) : (respond r s).color = s.color := rfl
@[simp] theorem respond_texW (r : Response) (s : State) : (respond r s).texW = s.texW := rfl
@[simp] theorem respond_texH (r : Response) (s : State) : (respond r s).texH = s.texH := rfl
@[simp] theorem respond_vtx (r : Response) (s : State) : (respond r s).vtx = s.vtx := rfl
@[simp] theorem respond_ctm (r : Response) (s : State) : (respond r s).ctm = s.ctm := rfl
@[simp] theorem respond_loc (r : Response) (s : State) : (respond r s).loc = s.loc := rfl
@[simp] theorem respond_xf (r : Response) (s : State) : (respond r s).xf = s.xf := rfl
@[simp] theorem respond_dm (r : Response) (s : State) : (respond r s).dm = s.dm := rfl
@[simp] theorem respond_tm (r : Response) (s : State) : (respond r s).tm = s.tm := rfl
@[simp] theorem respond_powerOns (r : Response) (s : State) : (respond r s).powerOns = s.powerOns := rfl
@[simp] theorem respond_freeCount (r : Response) (s : State) : (respond r s).freeCount = s.freeCount := rfl
@[simp] theorem respond_pending (r : Response) (s : State) : (respond r s).pending = s.pending := rfl
@[simp] theorem respond_responses (r : Response) (s : State) : (respond r s).responses = r :: s.responses := rfl

/-! ### `drawFree` -/

@[simp] theorem drawFree_params (s : State) : (drawFree s).params = s.params := rfl
@[simp] theorem drawFree_ctxOk (s : State) : (drawFree s).ctxOk = s.ctxOk := rfl
@[simp] theorem drawFree_err (s : State) : (drawFree s).err = s.err := rfl
@[simp] theorem drawFree_errinfo (s : State) : (drawFree s).errinfo = s.errinfo := rfl
@[simp] theorem drawFree_fbW (s : State) : (drawFree s).fbW = s.fbW := rfl
@[simp] theorem drawFree_fbH (s : State) : (drawFree s).fbH = s.fbH := rfl
@[simp] theorem drawFree_shader (s : State) : (drawFree s).shader = s.shader := rfl
@[simp] theorem drawFree_color (s : State) : (drawFree s).color = s.color := rfl
@[simp] theorem drawFree_texW (s : State) : (drawFree s).texW = s.texW := rfl
@[simp] theorem drawFree_texH (s : State) : (drawFree s).texH = s.texH := rfl
@[simp] theorem drawFree_vtx (s : State) : (drawFree s).vtx = s.vtx := rfl
@[simp] theorem drawFree_ctm (s : State) : (drawFree s).ctm = s.ctm := rfl
@[simp] theorem drawFree_loc (s : State) : (drawFree s).loc = s.loc := rfl
@[simp] theorem drawFree_xf (s : State) : (drawFree s).xf = s.xf := rfl
@[simp] theorem drawFree_dm (s : State) : (drawFree s).dm = s.dm := rfl
@[simp] theorem drawFree_tm (s : State) : (drawFree s).tm = s.tm := rfl
@[simp] theorem drawFree_powerOns (s : State) : (drawFree s).powerOns = s.powerOns := rfl
@[simp] theorem drawFree_freeCount (s : State) : (drawFree s).freeCount = s.freeCount + 1 := rfl
@[simp] theorem drawFree_pending (s : State) : (drawFree s).pending = s.pending := rfl
@[simp] theorem drawFree_responses (s : State) : (drawFree s).responses = s.responses := rfl

/-! ### `memWrite_dm` -/

@[simp] theorem memWrite_dm_params (s : State) (i : Nat) (w : Word) : (memWrite s .dm i w).params = s.params := rfl
@[simp] theorem memWrite_dm_ctxOk (s : State) (i : Nat) (w : Word) : (memWrite s .dm i w).ctxOk = s.ctxOk := rfl
@[simp] theorem memWrite_dm_err (s : State) (i : Nat) (w : Word) : (memWrite s .dm i w).err = s.err := rfl
@[simp] theorem memWrite_dm_errinfo (s : State) (i : Nat) (w : Word) : (memWrite s .dm i w).errinfo = s.errinfo := rfl
@[simp] theorem memWrite_dm_fbW (s : State) (i : Nat) (w : Word) : (memWrite s .dm i w).fbW = s.fbW := rfl
@[simp] theorem memWrite_dm_fbH (s : State) (i : Nat) (w : Word) : (memWrite s .dm i w).fbH = s.fbH := rfl
@[simp] theorem memWrite_dm_shader (s : State) (i : Nat) (w : Word) : (memWrite s .dm i w).shader = s.shader := rfl
@[simp] theorem memWrite_dm_color (s : State) (i : Nat) (w : Word) : (memWrite s .dm i w).color = s.color := rfl
@[simp] theorem memWrite_dm_texW (s : State) (i : Nat) (w : Word) : (memWrite s .dm i w).texW = s.texW := rfl
@[simp] theorem memWrite_dm_texH (s : State) (i : Nat) (w : Word) : (memWrite s .dm i w).texH = s.texH := rfl
@[simp] theorem memWrite_dm_vtx (s : State) (i : Nat) (w : Word) : (memWrite s .dm i w).vtx = s.vtx := rfl
@[simp] theorem memWrite_dm_ctm (s : State) (i : Nat) (w : Word) : (memWrite s .dm i w).ctm = s.ctm := rfl
@[simp] theorem memWrite_dm_loc (s : State) (i : Nat) (w : Word) : (memWrite s .dm i w).loc = s.loc := rfl
@[simp] theorem memWrite_dm_xf (s : State) (i : Nat) (w : Word) : (memWrite s .dm i w).xf = s.xf := rfl
@[simp] theorem memWrite_dm_dm (s : State) (i : Nat) (w : Word) : (memWrite s .dm i w).dm = writeWord s.dm i w := rfl
@[simp] theorem memWrite_dm_tm (s : State) (i : Nat) (w : Word) : (memWrite s .dm i w).tm = s.tm := rfl
@[simp] theorem memWrite_dm_powerOns (s : State) (i : Nat) (w : Word) : (memWrite s .dm i w).powerOns = s.powerOns := rfl
@[simp] theorem memWrite_dm_freeCount (s : State) (i : Nat) (w : Word) : (memWrite s .dm i w).freeCount = s.freeCount := rfl
@[simp] theorem memWrite_dm_pending (s : State) (i : Nat) (w : Word) : (memWrite s .dm i w).pending = s.pending := rfl
@[simp] theorem memWrite_dm_responses (s : State) (i : Nat) (w : Word) : (memWrite s .dm i w).responses = s.responses := rfl

/-! ### `memWrite_tm` -/

@[simp] theorem memWrite_tm_params (s : State) (i : Nat) (w : Word) : (memWrite s .tm i w).params = s.params := rfl
@[simp] theorem memWrite_tm_ctxOk (s : State) (i : Nat) (w : Word) : (memWrite s .tm i w).ctxOk = s.ctxOk := rfl
@[simp] theorem memWrite_tm_err (s : State) (i : Nat) (w : Word) : (memWrite s .tm i w).err = s.err := rfl
@[simp] theorem memWrite_tm_errinfo (s : State) (i : Nat) (w : Word) : (memWrite s .tm i w).errinfo = s.errinfo := rfl
@[simp] theorem memWrite_tm_fbW (s : State) (i : Nat) (w : Word) : (memWrite s .tm i w).fbW = s.fbW := rfl
@[simp] theorem memWrite_tm_fbH (s : State) (i : Nat) (w : Word) : (memWrite s .tm i w).fbH = s.fbH := rfl
@[simp] theorem memWrite_tm_shader (s : State) (i : Nat) (w : Word) : (memWrite s .tm i w).shader = s.shader := rfl
@[simp] theorem memWrite_tm_color (s : State) (i : Nat) (w : Word) : (memWrite s .tm i w).color = s.color := rfl
@[simp] theorem memWrite_tm_texW (s : State) (i : Nat) (w : Word) : (memWrite s .tm i w).texW = s.texW := rfl
@[simp] theorem memWrite_tm_texH (s : State) (i : Nat) (w : Word) : (memWrite s .tm i w).texH = s.texH := rfl
@[simp] theorem memWrite_tm_vtx (s : State) (i : Nat) (w : Word) : (memWrite s .tm i w).vtx = s.vtx := rfl
@[simp] theorem memWrite_tm_ctm (s : State) (i : Nat) (w : Word) : (memWrite s .tm i w).ctm = s.ctm := rfl
@[simp] theorem memWrite_tm_loc (s : State) (i : Nat) (w : Word) : (memWrite s .tm i w).loc = s.loc := rfl
@[simp] theorem memWrite_tm_xf (s : State) (i : Nat) (w : Word) : (memWrite s .tm i w).xf = s.xf := rfl
@[simp] theorem memWrite_tm_dm (s : State) (i : Nat) (w : Word) : (memWrite s .tm i w).dm = s.dm := rfl
@[simp] theorem memWrite_tm_tm (s : State) (i : Nat) (w : Word) : (memWrite s .tm i w).tm = writeWord s.tm i w := rfl
@[simp] theorem memWrite_tm_powerOns (s : State) (i : Nat) (w : Word) : (memWrite s .tm i w).powerOns = s.powerOns := rfl
@[simp] theorem memWrite_tm_freeCount (s : State) (i : Nat) (w : Word) : (memWrite s .tm i w).freeCount = s.freeCount := rfl
@[simp] theorem memWrite_tm_pending (s : State) (i : Nat) (w : Word) : (memWrite s .tm i w).pending = s.pending := rfl
@[simp] theorem memWrite_tm_responses (s : State) (i : Nat) (w : Word) : (memWrite s .tm i w).responses = s.responses := rfl

/-! ### `afterEvent` -/

@[simp] theorem afterEvent_params (s : State) (rest : List HostEvent) (r : Response) : (afterEvent s rest r).params = s.params := rfl
@[simp] theorem afterEvent_ctxOk (s : State) (rest : List HostEvent) (r : Response) : (afterEvent s rest r).ctxOk = s.ctxOk := rfl
@[simp] theorem afterEvent_err (s : State) (rest : List HostEvent) (r : Response) : (afterEvent s rest r).err = s.err := rfl
@[simp] theorem afterEvent_errinfo (s : State) (rest : List HostEvent) (r : Response) : (afterEvent s rest r).errinfo = s.errinfo := rfl
@[simp] theorem afterEvent_fbW (s : State) (rest : List HostEvent) (r : Response) : (afterEvent s rest r).fbW = s.fbW := rfl
@[simp] theorem afterEvent_fbH (s : State) (rest : List HostEvent) (r : Response) : (afterEvent s rest r).fbH = s.fbH := rfl
@[simp] theorem afterEvent_shader (s : State) (rest : List HostEvent) (r : Response) : (afterEvent s rest r).shader = s.shader := rfl
@[simp] theorem afterEvent_color (s : State) (rest : List HostEvent) (r : Response) : (afterEvent s rest r).color = s.color := rfl
@[simp] theorem afterEvent_texW (s : State) (rest : List HostEvent) (r : Response) : (afterEvent s rest r).texW = s.texW := rfl
@[simp] theorem afterEvent_texH (s : State) (rest : List HostEvent) (r : Response) : (afterEvent s rest r).texH = s.texH := rfl
@[simp] theorem afterEvent_vtx (s : State) (rest : List HostEvent) (r : Response) : (afterEvent s rest r).vtx = s.vtx := rfl
@[simp] theorem afterEvent_ctm (s : State) (rest : List HostEvent) (r : Response) : (afterEvent s rest r).ctm = s.ctm := rfl
@[simp] theorem afterEvent_loc (s : State) (rest : List HostEvent) (r : Response) : (afterEvent s rest r).loc = s.loc := rfl
@[simp] theorem afterEvent_xf (s : State) (rest : List HostEvent) (r : Response) : (afterEvent s rest r).xf = s.xf := rfl
@[simp] theorem afterEvent_dm (s : State) (rest : List HostEvent) (r : Response) : (afterEvent s rest r).dm = s.dm := rfl
@[simp] theorem afterEvent_tm (s : State) (rest : List HostEvent) (r : Response) : (afterEvent s rest r).tm = s.tm := rfl
@[simp] theorem afterEvent_powerOns (s : State) (rest : List HostEvent) (r : Response) : (afterEvent s rest r).powerOns = s.powerOns := rfl
@[simp] theorem afterEvent_freeCount (s : State) (rest : List HostEvent) (r : Response) : (afterEvent s rest r).freeCount = s.freeCount := rfl
@[simp] theorem afterEvent_pending (s : State) (rest : List HostEvent) (r : Response) : (afterEvent s rest r).pending = rest := rfl
@[simp] theorem afterEvent_responses (s : State) (rest : List HostEvent) (r : Response) : (afterEvent s rest r).responses = r :: s.responses := rfl

/-! ### `writeReg` -/

@[simp] theorem writeReg_params (s : State) (r : Reg) (w : Word) : (writeReg s r w).params = s.params := by
  cases r <;> rfl
@[simp] theorem writeReg_ctxOk (s : State) (r : Reg) (w : Word) : (writeReg s r w).ctxOk = s.ctxOk := by
  cases r <;> rfl
@[simp] theorem writeReg_err (s : State) (r : Reg) (w : Word) : (writeReg s r w).err = s.err := by
  cases r <;> rfl
@[simp] theorem writeReg_errinfo (s : State) (r : Reg) (w : Word) : (writeReg s r w).errinfo = s.errinfo := by
  cases r <;> rfl
@[simp] theorem writeReg_xf (s : State) (r : Reg) (w : Word) : (writeReg s r w).xf = s.xf := by
  cases r <;> rfl
@[simp] theorem writeReg_dm (s : State) (r : Reg) (w : Word) : (writeReg s r w).dm = s.dm := by
  cases r <;> rfl
@[simp] theorem writeReg_tm (s : State) (r : Reg) (w : Word) : (writeReg s r w).tm = s.tm := by
  cases r <;> rfl
@[simp] theorem writeReg_powerOns (s : State) (r : Reg) (w : Word) : (writeReg s r w).powerOns = s.powerOns := by
  cases r <;> rfl
@[simp] theorem writeReg_freeCount (s : State) (r : Reg) (w : Word) : (writeReg s r w).freeCount = s.freeCount := by
  cases r <;> rfl
@[simp] theorem writeReg_pending (s : State) (r : Reg) (w : Word) : (writeReg s r w).pending = s.pending := by
  cases r <;> rfl
@[simp] theorem writeReg_responses (s : State) (r : Reg) (w : Word) : (writeReg s r w).responses = s.responses := by
  cases r <;> rfl

/-! ### The `NUMERICS` record of a state -/

/-- The record depends on the parameters alone. -/
theorem arith_congr {s t : State} (h : t.params = s.params) : arith t = arith s := by
  unfold arith
  rw [h]

@[simp] theorem arith_with_dm (s : State) (m : Memory) : arith { s with dm := m } = arith s := rfl

@[simp] theorem numericsOf_binary32 : numericsOf .binary32 = binary32Record := rfl

@[simp] theorem ieee_eq : ieee = binary32Record := rfl

@[simp] theorem numericsOf_other (k : Nat) : numericsOf (.other k) = otherRecord k := rfl

@[simp] theorem binary32Record_fadd : binary32Record.fadd = fadd := rfl
@[simp] theorem binary32Record_fsub : binary32Record.fsub = fsub := rfl
@[simp] theorem binary32Record_fmul : binary32Record.fmul = fmul := rfl
@[simp] theorem binary32Record_fdiv : binary32Record.fdiv = fdiv := rfl
@[simp] theorem binary32Record_fneg : binary32Record.fneg = fneg := rfl
@[simp] theorem binary32Record_i2f : binary32Record.i2f = i2f := rfl
@[simp] theorem binary32Record_feq0 : binary32Record.feq0 = feq0 := rfl
@[simp] theorem binary32Record_ffloor : binary32Record.ffloor = ffloor := rfl

end Sys2Proof.Machine
end

