-- ==== Sys2Proof/Laws/Memory.lean ====
section
/-! SUPPORT. What the memory operations do: a read after a write, other bytes left alone, and the
canonical form kept. -/

namespace Sys2Proof.Machine

/-! ### Bytes -/

@[simp] theorem byteAt?_nil (a : Nat) : byteAt? [] a = none := rfl

/-- Everything a byte write does to what any offset reads as. -/
theorem byteAt?_writeByte (m : Memory) (a : Nat) (b : Byte) (j : Nat) :
    byteAt? (writeByte m a b) j = if j = a then some b else byteAt? m j := by
  induction m with
  | nil =>
    simp only [writeByte, byteAt?]
    by_cases h : a = j
    · simp [h]
    · simp [h, Ne.symm h]
  | cons c rest ih =>
    obtain ⟨k, v⟩ := c
    simp only [writeByte]
    by_cases hj : j = a
    · subst hj
      rw [if_pos rfl]
      split
      · simp [byteAt?]
      · split
        · simp [byteAt?]
        · rename_i h
          simp [byteAt?, h, ih]
    · rw [if_neg hj]
      have hja : ¬ a = j := fun h => hj h.symm
      split
      · simp [byteAt?, hja]
      · split
        · rename_i h
          subst h
          simp [byteAt?, hja]
        · simp only [byteAt?, ih, if_neg hj]

theorem risingFrom_writeByte (m : Memory) (lo : Option Nat) (a : Nat) (b : Byte)
    (hlo : ∀ k, lo = some k → k < a) (h : risingFrom lo m = true) :
    risingFrom lo (writeByte m a b) = true := by
  induction m generalizing lo with
  | nil =>
    cases lo with
    | none => rfl
    | some k => simp [writeByte, risingFrom, hlo k rfl]
  | cons c rest ih =>
    obtain ⟨k, v⟩ := c
    have hrest : risingFrom (some k) rest = true := by
      cases lo <;> simp_all [risingFrom]
    have hk : ∀ l, lo = some l → l < k := by
      intro l hl
      subst hl
      simp_all [risingFrom]
    simp only [writeByte]
    split
    · rename_i hak
      cases lo with
      | none => simp [risingFrom, hak, hrest]
      | some l => simp [risingFrom, hak, hrest, hlo l rfl]
    · split
      · rename_i _ hka
        subst hka
        cases lo with
        | none => simp [risingFrom, hrest]
        | some l => simp [risingFrom, hrest, hk l rfl]
      · have := ih (some k) (by intro l hl; cases hl; omega) hrest
        cases lo with
        | none => simpa [risingFrom] using this
        | some l => simp [risingFrom, this, hk l rfl]

/-- A byte write keeps the canonical form. -/
theorem writeByte_wf (m : Memory) (a : Nat) (b : Byte) (h : Memory.wf m = true) :
    Memory.wf (writeByte m a b) = true :=
  risingFrom_writeByte m none a b (by simp) h

/-- A byte write inside the aperture keeps every offset inside it. -/
theorem writeByte_below (m : Memory) (n a : Nat) (b : Byte) (ha : a < 4 * n)
    (h : Memory.below n m = true) : Memory.below n (writeByte m a b) = true := by
  induction m with
  | nil => simp [writeByte, Memory.below, ha]
  | cons c rest ih =>
    obtain ⟨k, v⟩ := c
    simp only [Memory.below, List.all_cons, Bool.and_eq_true, decide_eq_true_eq] at h ih
    simp only [writeByte, Memory.below]
    split
    · simp [ha, h.1]; simpa using h.2
    · split
      · simp [ha]; simpa using h.2
      · simp only [List.all_cons, Bool.and_eq_true, decide_eq_true_eq]
        exact ⟨h.1, ih h.2⟩

/-! ### Words -/

/-- Everything a word write does to what any byte offset reads as. -/
theorem byteAt?_writeWord (m : Memory) (i : Nat) (w : Word) (j : Nat) :
    byteAt? (writeWord m i w) j =
      if j = 4 * i + 3 then some (w.extractLsb' 24 8)
      else if j = 4 * i + 2 then some (w.extractLsb' 16 8)
      else if j = 4 * i + 1 then some (w.extractLsb' 8 8)
      else if j = 4 * i then some (w.extractLsb' 0 8)
      else byteAt? m j := by
  simp only [writeWord, byteAt?_writeByte]

/-- A word write leaves every byte outside the word's four alone. -/
theorem byteAt?_writeWord_other (m : Memory) (i : Nat) (w : Word) (j : Nat) (h : j / 4 ≠ i) :
    byteAt? (writeWord m i w) j = byteAt? m j := by
  rw [byteAt?_writeWord, if_neg (by omega), if_neg (by omega), if_neg (by omega), if_neg (by omega)]

/-- A word write keeps the canonical form. -/
theorem writeWord_wf (m : Memory) (i : Nat) (w : Word) (h : Memory.wf m = true) :
    Memory.wf (writeWord m i w) = true :=
  writeByte_wf _ _ _ (writeByte_wf _ _ _ (writeByte_wf _ _ _ (writeByte_wf _ _ _ h)))

/-- A word write at an index of the memory keeps every offset inside the aperture. -/
theorem writeWord_below (m : Memory) (n i : Nat) (w : Word) (hi : i < n)
    (h : Memory.below n m = true) : Memory.below n (writeWord m i w) = true :=
  writeByte_below _ _ _ _ (by omega) (writeByte_below _ _ _ _ (by omega)
    (writeByte_below _ _ _ _ (by omega) (writeByte_below _ _ _ _ (by omega) h)))

/-- A word write leaves no word half written. -/
theorem writeWord_wholeWords (m : Memory) (i : Nat) (w : Word) (h : wholeWords m) :
    wholeWords (writeWord m i w) := by
  intro j
  by_cases hji : j = i
  · subst hji
    left
    refine ⟨w, ?_, ?_, ?_, ?_⟩ <;> simp [byteAt?_writeWord]
  · have e : ∀ k, k < 4 → byteAt? (writeWord m i w) (4 * j + k) = byteAt? m (4 * j + k) :=
      fun k hk => byteAt?_writeWord_other m i w _ (by omega)
    have e0 := e 0 (by omega)
    have e1 := e 1 (by omega)
    have e2 := e 2 (by omega)
    have e3 := e 3 (by omega)
    simp only [Nat.add_zero] at e0
    rw [e0, e1, e2, e3]
    exact h j

/-- A word write at an index of the memory keeps its shape. -/
theorem writeWord_shaped (m : Memory) (n i : Nat) (w : Word) (hi : i < n) (h : memoryShaped n m) :
    memoryShaped n (writeWord m i w) :=
  ⟨writeWord_wf m i w h.1, writeWord_below m n i w hi h.2.1, writeWord_wholeWords m i w h.2.2⟩

/-- Nothing written is in canonical form. -/
theorem nil_shaped (n : Nat) : memoryShaped n [] :=
  ⟨rfl, rfl, fun _ => Or.inr ⟨rfl, rfl, rfl, rfl⟩⟩

/-- The reset memories are in canonical form. -/
theorem reset_memories_wf : Memory.wf State.reset.dm = true ∧ Memory.wf State.reset.tm = true :=
  ⟨rfl, rfl⟩

/-! ### Reads of the state's memories -/

/-- What a byte of a memory reads as depends on that memory and the power-on count alone. -/
theorem readByte_congr {s t : State} {sp : Space} {a : Nat} (hp : t.powerOns = s.powerOns)
    (hm : byteAt? (memOf t sp) a = byteAt? (memOf s sp) a) : readByte t sp a = readByte s sp a := by
  unfold readByte
  rw [hm]
  cases sp <;> simp [powerOnByte, hp]

/-- The same for a pixel word. -/
theorem readWord_congr {s t : State} {sp : Space} {i : Nat} (hp : t.powerOns = s.powerOns)
    (hm : ∀ a, a / 4 = i → byteAt? (memOf t sp) a = byteAt? (memOf s sp) a) :
    readWord t sp i = readWord s sp i := by
  unfold readWord
  rw [readByte_congr hp (hm _ (by omega)), readByte_congr hp (hm _ (by omega)),
    readByte_congr hp (hm _ (by omega)), readByte_congr hp (hm _ (by omega))]

/-- The four bytes of a word put together are the word. -/
theorem word_of_bytes (w : Word) :
    (w.extractLsb' 24 8 ++ w.extractLsb' 16 8 ++ w.extractLsb' 8 8 ++ w.extractLsb' 0 8 : Word) = w := by
  apply BitVec.eq_of_getLsbD_eq
  intro i hi
  simp only [BitVec.getLsbD_append, BitVec.getLsbD_extractLsb']
  by_cases h0 : i < 8
  · simp [h0]
  · by_cases h1 : i - 8 < 8
    · simp [h0, h1]; congr 1; omega
    · by_cases h2 : i - 8 - 8 < 8
      · simp [h0, h1, h2]; congr 1; omega
      · have h3 : i - 8 - 8 - 8 < 8 := by omega
        simp [h0, h1, h2, h3]; congr 1; omega

/-- The four lanes of a word just written (R55). -/
theorem byteAt?_writeWord_lanes (m : Memory) (i : Nat) (w : Word) :
    byteAt? (writeWord m i w) (4 * i) = some (w.extractLsb' 0 8) ∧
    byteAt? (writeWord m i w) (4 * i + 1) = some (w.extractLsb' 8 8) ∧
    byteAt? (writeWord m i w) (4 * i + 2) = some (w.extractLsb' 16 8) ∧
    byteAt? (writeWord m i w) (4 * i + 3) = some (w.extractLsb' 24 8) := by
  refine ⟨?_, ?_, ?_, ?_⟩ <;> simp [byteAt?_writeWord]

/-- Reading a pixel word just written gives the word. -/
theorem readWord_memWrite_same (s : State) (sp : Space) (i : Nat) (w : Word) :
    readWord (memWrite s sp i w) sp i = w := by
  have hm : memOf (memWrite s sp i w) sp = writeWord (memOf s sp) i w := by cases sp <;> rfl
  obtain ⟨h0, h1, h2, h3⟩ := byteAt?_writeWord_lanes (memOf s sp) i w
  simp only [readWord, readByte, hm, h0, h1, h2, h3, Option.getD_some]
  exact word_of_bytes w

/-- A pixel write leaves every byte outside its word alone, in both memories. -/
theorem readByte_memWrite_other (s : State) (sp sp' : Space) (i a : Nat) (w : Word)
    (h : sp' ≠ sp ∨ a / 4 ≠ i) : readByte (memWrite s sp i w) sp' a = readByte s sp' a := by
  apply readByte_congr
  · cases sp <;> rfl
  · rcases h with h | h
    · cases sp <;> cases sp' <;> first | rfl | exact absurd rfl h
    · cases sp <;> cases sp' <;> first | rfl | exact byteAt?_writeWord_other _ _ _ _ h

/-- A pixel write leaves every other pixel word alone. -/
theorem readWord_memWrite_other (s : State) (sp sp' : Space) (i j : Nat) (w : Word)
    (h : sp' ≠ sp ∨ j ≠ i) : readWord (memWrite s sp i w) sp' j = readWord s sp' j := by
  unfold readWord
  have : ∀ k, k < 4 → readByte (memWrite s sp i w) sp' (4 * j + k) = readByte s sp' (4 * j + k) :=
    fun k hk => readByte_memWrite_other s sp sp' i _ w (h.imp id fun h => by omega)
  have e0 := this 0 (by omega)
  simp only [Nat.add_zero] at e0
  rw [e0, this 1 (by omega), this 2 (by omega), this 3 (by omega)]

@[simp] theorem length_memRead (s : State) (sp : Space) (i n : Nat) : (memRead s sp i n).length = n := by
  induction n generalizing i with
  | zero => rfl
  | succ n ih => simp [memRead, ih]

/-- Element `j` of `MemRead(sp, i, n)` is the word at index `i + j`. -/
theorem getElem?_memRead (s : State) (sp : Space) (i n j : Nat) (h : j < n) :
    (memRead s sp i n)[j]? = some (readWord s sp (i + j)) := by
  induction n generalizing i j with
  | zero => omega
  | succ n ih =>
    cases j with
    | zero => simp [memRead]
    | succ j =>
      simp only [memRead, List.getElem?_cons_succ]
      rw [ih (i + 1) j (by omega)]
      congr 2
      omega

end Sys2Proof.Machine
end

