-- ==== Sys2Proof/Laws/Draw.lean ====
section
/-! SUPPORT. What the scanline loop can do: it writes DM and nothing else, keeps DM's shape, and its
accumulators hold the closed form of R152. -/

namespace Sys2Proof.Machine

/-! ### Only DM changes -/

/-- The pixel loop changes nothing but DM. -/
theorem drawPixels_frame (es : Edges) (i : Nat) (a : Acc) (ps : List Word) (s : State) :
    drawPixels es i a ps s = { s with dm := (drawPixels es i a ps s).dm } := by
  induction ps generalizing i a s with
  | nil => rfl
  | cons p ps ih =>
    simp only [drawPixels]
    split
    · rw [ih]; rfl
    · rw [ih]

/-- A row changes nothing but DM. -/
theorem drawRow_frame (serial : Nat) (es : Edges) (xmin count y : Nat) (cy : Acc) (s : State) :
    drawRow serial es xmin count y cy s =
      { s with dm := (drawRow serial es xmin count y cy s).dm } :=
  drawPixels_frame ..

/-- The rows change nothing but DM. -/
theorem drawRows_frame (serial : Nat) (es : Edges) (xmin count n y : Nat) (cy : Acc) (s : State) :
    drawRows serial es xmin count n y cy s =
      { s with dm := (drawRows serial es xmin count n y cy s).dm } := by
  induction n generalizing y cy s with
  | zero => rfl
  | succ n ih =>
    simp only [drawRows]
    rw [ih, drawRow_frame]

/-- A triangle changes nothing but DM and the count of free values. -/
theorem drawTriangle_frame (t : Fixed) (s : State) :
    drawTriangle t s =
      { s with dm := (drawTriangle t s).dm, freeCount := (drawTriangle t s).freeCount } := by
  unfold drawTriangle
  dsimp only
  split
  · rfl
  · rw [drawRows_frame]; rfl

/-! ### Lengths -/

@[simp] theorem length_shadeBitmapFrom (s : State) (n : Nat) (u v : Word) :
    (shadeBitmapFrom s n u v).length = n := by
  induction n generalizing u v with
  | zero => rfl
  | succ n ih => simp [shadeBitmapFrom, ih]

/-- A shaded row has the length asked for (R123). -/
@[simp] theorem length_shadeRow (s : State) (x y n : Nat) : (shadeRow s x y n).length = n := by
  unfold shadeRow
  split <;> simp [shadeBitmap]

/-- Two rows of one length blend to a row of that length (R107). -/
theorem length_blendRow (serial i : Nat) (src dst : List Word) (h : src.length = dst.length) :
    (blendRow serial i src dst).length = src.length := by
  induction src generalizing i dst with
  | nil => cases dst <;> rfl
  | cons p src ih =>
    cases dst with
    | nil => simp at h
    | cons d dst => simp [blendRow, ih (i + 1) dst (by simpa using h)]

/-- Each element of a blended row depends on the two elements at its place alone (R107). -/
theorem getElem?_blendRow (serial i : Nat) (src dst : List Word) (j : Nat) (p d : Word)
    (hp : src[j]? = some p) (hd : dst[j]? = some d) :
    (blendRow serial i src dst)[j]? = some (blendAt serial (i + j) p d) := by
  induction src generalizing i dst j with
  | nil => simp at hp
  | cons p' src ih =>
    cases dst with
    | nil => simp at hd
    | cons d' dst =>
      cases j with
      | zero => simp_all [blendRow]
      | succ j =>
        simp only [List.getElem?_cons_succ] at hp hd
        simp only [blendRow, List.getElem?_cons_succ]
        rw [ih (i + 1) dst j hp hd]
        congr 2
        omega

/-! ### Accumulators -/

/-- The accumulators that hold the closed form of R152 at pixel `(x, y)`. -/
def accAt (es : Edges) (x y : Int) : Acc :=
  { k1 := edgeValue es.e12 x y, k2 := edgeValue es.e23 x y, k3 := edgeValue es.e31 x y }

theorem accStart_eq (es : Edges) (b : Bounds) : accStart es b = accAt es b.xmin b.ymin := by
  simp only [accStart, accAt, edgeStart, edgeValue, Acc.mk.injEq]
  refine ⟨?_, ?_, ?_⟩ <;> ring

theorem accStepX_accAt (es : Edges) (x y : Int) : accStepX es (accAt es x y) = accAt es (x + 1) y := by
  simp only [accStepX, accAt, edgeValue, Acc.mk.injEq]
  refine ⟨?_, ?_, ?_⟩ <;> ring

theorem accStepY_accAt (es : Edges) (x y : Int) : accStepY es (accAt es x y) = accAt es x (y + 1) := by
  simp only [accStepY, accAt, edgeValue, Acc.mk.injEq]
  refine ⟨?_, ?_, ?_⟩ <;> ring

/-- A pixel is covered exactly when all three values are negative (R158). -/
theorem covered_iff (a : Acc) : covered a = true ↔ a.k1 < 0 ∧ a.k2 < 0 ∧ a.k3 < 0 := by
  simp only [covered, Bool.and_eq_true, decide_eq_true_eq, and_assoc]

/-- The coverage test of the loop is that of the closed form. -/
theorem covered_accAt (es : Edges) (x y : Int) : covered (accAt es x y) = true ↔ insideEdges es x y :=
  covered_iff _

/-! ### What a row does to DM -/

/-- The pixel loop leaves every byte outside its segment alone. -/
theorem drawPixels_other (es : Edges) (i : Nat) (a : Acc) (ps : List Word) (s : State) (o : Nat)
    (h : o / 4 < i ∨ i + ps.length ≤ o / 4) :
    byteAt? (drawPixels es i a ps s).dm o = byteAt? s.dm o := by
  induction ps generalizing i a s with
  | nil => rfl
  | cons p ps ih =>
    simp only [List.length_cons] at h
    simp only [drawPixels]
    rw [ih _ _ _ (by omega)]
    split
    · exact byteAt?_writeWord_other _ _ _ _ (by omega)
    · rfl

/-- The pixel loop at index `i + j` of its segment: the pixel's word where the accumulators of pixel
`j` are all negative, the byte as it was otherwise. -/
theorem drawPixels_at (es : Edges) (i : Nat) (x y : Int) (ps : List Word) (s : State) (j o : Nat)
    (p : Word) (hj : ps[j]? = some p) (ho : o / 4 = i + j) :
    byteAt? (drawPixels es i (accAt es x y) ps s).dm o =
      if covered (accAt es (x + j) y) then byteAt? (writeWord s.dm (i + j) p) o
      else byteAt? s.dm o := by
  induction ps generalizing i x s j with
  | nil => simp at hj
  | cons q ps ih =>
    simp only [drawPixels, accStepX_accAt]
    cases j with
    | zero =>
      simp only [List.getElem?_cons_zero, Option.some.injEq] at hj
      subst hj
      rw [drawPixels_other _ _ _ _ _ _ (by omega)]
      simp only [Nat.cast_zero, add_zero]
      split <;> rfl
    | succ j =>
      simp only [List.getElem?_cons_succ] at hj
      rw [ih (i + 1) (x + 1) _ j hj (by omega)]
      have hx : x + 1 + (j : Int) = x + ((j + 1 : Nat) : Int) := by push_cast; ring
      have hi : i + 1 + j = i + (j + 1) := by omega
      rw [hx, hi]
      have hother : byteAt? (writeWord s.dm i q) o = byteAt? s.dm o :=
        byteAt?_writeWord_other _ _ _ _ (by omega)
      by_cases hq : covered (accAt es x y) = true
      · simp only [hq, if_true, memWrite_dm_dm]
        rw [byteAt?_writeWord (writeWord s.dm i q), hother, ← byteAt?_writeWord]
      · simp only [hq, if_false, Bool.false_eq_true]

/-- The pixel loop keeps DM's shape when its segment lies inside the memory. -/
theorem drawPixels_shaped (es : Edges) (i : Nat) (a : Acc) (ps : List Word) (s : State) (n : Nat)
    (hn : i + ps.length ≤ n) (h : memoryShaped n s.dm) :
    memoryShaped n (drawPixels es i a ps s).dm := by
  induction ps generalizing i a s with
  | nil => exact h
  | cons p ps ih =>
    simp only [List.length_cons] at hn
    simp only [drawPixels]
    apply ih _ _ _ (by omega)
    split
    · exact writeWord_shaped _ _ _ _ (by omega) h
    · exact h

/-! ### What rows do to DM -/

/-- The row loop of the shader does not read DM. -/
theorem shadeBitmapFrom_dm (s : State) (m : Memory) (n : Nat) (u v : Word) :
    shadeBitmapFrom { s with dm := m } n u v = shadeBitmapFrom s n u v := by
  induction n generalizing u v with
  | zero => rfl
  | succ n ih => simp only [shadeBitmapFrom]; rw [ih]; rfl

/-- A shaded row does not depend on DM. -/
theorem shadeRow_dm (s : State) (m : Memory) (x y n : Nat) :
    shadeRow { s with dm := m } x y n = shadeRow s x y n := by
  unfold shadeRow shadeBitmap
  simp only [shadeBitmapFrom_dm, arith_with_dm]

/-- A row at a byte of its segment: where pixel `(xmin + j, y)` is covered, the byte of the blend of the
shaded pixel over the old word; else the byte as it was (R154 to R158). -/
theorem drawRow_at (serial : Nat) (es : Edges) (xmin count y : Nat) (s : State) (j o : Nat) (p : Word)
    (hj : j < count) (ho : o / 4 = pixelIndex s.fbW.toNat xmin y + j)
    (hp : (shadeRow s xmin y count)[j]? = some p) :
    byteAt? (drawRow serial es xmin count y (accAt es xmin y) s).dm o =
      if covered (accAt es (xmin + j) y) then
        byteAt? (writeWord s.dm (o / 4) (blendAt serial (o / 4) p (readWord s .dm (o / 4)))) o
      else byteAt? s.dm o := by
  unfold drawRow
  dsimp only
  rw [drawPixels_at _ _ _ _ _ _ j o (blendAt serial (o/4) p (readWord s .dm (o/4))) _ ho]
  · rw [ho]
  · rw [getElem?_blendRow serial _ _ _ j p (readWord s .dm (o/4)) hp]
    · rw [ho]
    · rw [getElem?_memRead _ _ _ _ _ hj, ho]

/-- A row leaves every byte outside its segment alone. -/
theorem drawRow_other (serial : Nat) (es : Edges) (xmin count y : Nat) (cy : Acc) (s : State) (o : Nat)
    (ho : o / 4 < pixelIndex s.fbW.toNat xmin y ∨ pixelIndex s.fbW.toNat xmin y + count ≤ o / 4) :
    byteAt? (drawRow serial es xmin count y cy s).dm o = byteAt? s.dm o := by
  unfold drawRow
  dsimp only
  apply drawPixels_other
  rw [length_blendRow] <;> simp
  exact ho

/-- The rows leave every byte outside the bounds alone. -/
theorem drawRows_other (serial : Nat) (es : Edges) (xmin count n y0 : Nat) (cy : Acc) (s : State)
    (o : Nat) (ho : ∀ x y, xmin ≤ x → x < xmin + count → y0 ≤ y → y < y0 + n →
      o / 4 ≠ pixelIndex s.fbW.toNat x y) :
    byteAt? (drawRows serial es xmin count n y0 cy s).dm o = byteAt? s.dm o := by
  induction n generalizing y0 cy s with
  | zero => rfl
  | succ n ih =>
    simp only [drawRows]
    rw [ih]
    · apply drawRow_other
      by_contra hc
      push Not at hc
      apply ho (xmin + (o / 4 - pixelIndex s.fbW.toNat xmin y0)) y0 <;> try omega
      unfold pixelIndex at *
      omega
    · intro x y h1 h2 h3 h4
      rw [drawRow_frame]
      exact ho x y h1 h2 (by omega) (by omega)

/-- Pixels of two rows have two indices (R51). -/
theorem pixelIndex_ne (w x y x' y' : Nat) (hx : x < w) (hy : y < y') :
    pixelIndex w x y ≠ pixelIndex w x' y' := by
  unfold pixelIndex
  have := Nat.mul_le_mul_right w (show y + 1 ≤ y' from hy)
  rw [Nat.add_mul] at this
  omega

/-- The rows at a byte of pixel `(x, y)` inside the bounds: the blend over the old word where the pixel
is covered, else the byte as it was. No pixel is visited twice. -/
theorem drawRows_at (serial : Nat) (es : Edges) (xmin count n y0 : Nat) (s : State) (x y o : Nat)
    (p : Word) (hw : xmin + count ≤ s.fbW.toNat) (hx : xmin ≤ x) (hxc : x < xmin + count)
    (hy : y0 ≤ y) (hyn : y < y0 + n) (ho : o / 4 = pixelIndex s.fbW.toNat x y)
    (hp : (shadeRow s xmin y count)[x - xmin]? = some p) :
    byteAt? (drawRows serial es xmin count n y0 (accAt es xmin y0) s).dm o =
      if covered (accAt es x y) then
        byteAt? (writeWord s.dm (o / 4) (blendAt serial (o / 4) p (readWord s .dm (o / 4)))) o
      else byteAt? s.dm o := by
  induction n generalizing y0 s with
  | zero => omega
  | succ n ih =>
    simp only [drawRows]
    rw [accStepY_accAt, show (y0 : Int) + 1 = ((y0 + 1 : Nat) : Int) by push_cast; rfl]
    have hfr := drawRow_frame serial es xmin count y0 (accAt es xmin y0) s
    have hbw : (drawRow serial es xmin count y0 (accAt es xmin y0) s).fbW = s.fbW := by rw [hfr]
    by_cases hyy : y = y0
    · subst hyy
      rw [drawRows_other]
      · rw [show (x : Int) = (xmin : Int) + ((x - xmin : Nat) : Int) by omega]
        refine drawRow_at serial es xmin count y s (x - xmin) o p (by omega) ?_ hp
        rw [ho]
        unfold pixelIndex
        omega
      · intro x' y' _ _ _ _
        rw [hbw, ho]
        exact pixelIndex_ne _ _ _ _ _ (by omega) (by omega)
    · have hds : ∀ o', o' / 4 = o / 4 →
          byteAt? (drawRow serial es xmin count y0 (accAt es xmin y0) s).dm o' = byteAt? s.dm o' := by
        intro o' ho'
        apply drawRow_other
        right
        rw [ho', ho]
        unfold pixelIndex
        have : (y0 + 1) * s.fbW.toNat ≤ y * s.fbW.toNat := Nat.mul_le_mul_right _ (by omega)
        rw [Nat.add_mul] at this
        omega
      rw [ih (y0 + 1) _ (by rw [hbw]; exact hw) (by omega) (by omega) (by rw [hbw]; exact ho)
        (by rw [hfr, shadeRow_dm]; exact hp)]
      rw [readWord_congr (s := s) (sp := .dm) (i := o / 4) (by rw [hfr]) (fun a ha => hds a ha)]
      split
      · rw [byteAt?_writeWord, hds o rfl, ← byteAt?_writeWord]
      · exact hds o rfl

/-! ### Bounds -/

/-- The bounds are empty exactly when no column or no row is left (R148). -/
theorem emptyBounds_iff (b : Bounds) : emptyBounds b = true ↔ b.xmax ≤ b.xmin ∨ b.ymax ≤ b.ymin := by
  simp [emptyBounds]

/-- The clipped bounds lie on the canvas (R147). -/
theorem boundsOn_range (s : State) (t : Fixed) :
    0 ≤ (boundsOn s t).xmin ∧ 0 ≤ (boundsOn s t).ymin ∧
    (boundsOn s t).xmax ≤ s.fbW.toNat ∧ (boundsOn s t).ymax ≤ s.fbH.toNat := by
  simp [boundsOn, clipBounds]

/-- A triangle draws the rows of its bounds from the closed form on, or nothing (R148, R151). -/
theorem drawTriangle_cases (t : Fixed) (s : State) :
    (emptyBounds (boundsOn s t) = true ∧ drawTriangle t s = s) ∨
    (emptyBounds (boundsOn s t) = false ∧
      drawTriangle t s = drawFree (drawRows s.freeCount (mkEdges t) (boundsOn s t).xmin.toNat
        ((boundsOn s t).xmax - (boundsOn s t).xmin).toNat
        ((boundsOn s t).ymax - (boundsOn s t).ymin).toNat (boundsOn s t).ymin.toNat
        (accAt (mkEdges t) (boundsOn s t).xmin.toNat (boundsOn s t).ymin.toNat) s)) := by
  obtain ⟨hx, hy, _⟩ := boundsOn_range s t
  unfold drawTriangle
  rw [show clipBounds s.fbW.toNat s.fbH.toNat (rawBounds t) = boundsOn s t from rfl]
  by_cases he : emptyBounds (boundsOn s t) = true
  · exact .inl ⟨he, by simp [he]⟩
  · have he : emptyBounds (boundsOn s t) = false := by simpa using he
    refine .inr ⟨he, ?_⟩
    simp only [he]
    rw [accStart_eq, Int.toNat_of_nonneg hx, Int.toNat_of_nonneg hy]
    rfl

end Sys2Proof.Machine
end

