-- ==== Sys2Proof/Laws/Float.lean ====
section
/-! SUPPORT. What the float primitives do on NaN, on the two zeros and on signs (R110 to R112). -/

namespace Sys2Proof.Machine

/-- A pattern is read as a NaN exactly when it is one. -/
theorem unpack_nan_iff (w : Word) : unpack w = .nan ↔ isNaN w = true := by
  unfold unpack isNaN
  by_cases he : expField w = 255
  · by_cases hf : fracField w = 0 <;> simp [he, hf]
  · by_cases h0 : expField w = 0 <;> simp [he, h0]

@[simp] theorem isNaN_quietNaN : isNaN quietNaN = true := by decide

@[simp] theorem unpack_quietNaN : unpack quietNaN = .nan := by decide

theorem fadd_nan_left (a b : Word) (h : isNaN a = true) : isNaN (fadd a b) = true := by
  unfold fadd
  rw [(unpack_nan_iff a).2 h]
  simp

theorem fadd_nan_right (a b : Word) (h : isNaN b = true) : isNaN (fadd a b) = true := by
  unfold fadd
  rw [(unpack_nan_iff b).2 h]
  cases unpack a <;> simp

theorem fmul_nan_left (a b : Word) (h : isNaN a = true) : isNaN (fmul a b) = true := by
  unfold fmul
  rw [(unpack_nan_iff a).2 h]
  simp

theorem fmul_nan_right (a b : Word) (h : isNaN b = true) : isNaN (fmul a b) = true := by
  unfold fmul
  rw [(unpack_nan_iff b).2 h]
  cases unpack a <;> simp

theorem fdiv_nan_left (a b : Word) (h : isNaN a = true) : isNaN (fdiv a b) = true := by
  unfold fdiv
  rw [(unpack_nan_iff a).2 h]
  simp

theorem fdiv_nan_right (a b : Word) (h : isNaN b = true) : isNaN (fdiv a b) = true := by
  unfold fdiv
  rw [(unpack_nan_iff b).2 h]
  cases unpack a <;> simp

/-- The magnitude bits of a pattern and its sign put it together again. -/
theorem toNat_withSign (neg : Bool) (mag : Nat) (h : mag < 2 ^ 31) :
    (withSign neg mag).toNat = mag + if neg then 2 ^ 31 else 0 := by
  unfold withSign
  rw [BitVec.toNat_ofNat]
  cases neg <;> simp <;> omega

/-- The arithmetic shift is the floor of the division by a power of two (R9). -/
theorem asr_eq_div (a : Int) (n : Nat) : asr a n = a / 2 ^ n := by
  unfold asr
  rw [Int.shiftRight_eq_div_pow]
  norm_cast

/-- Rounding a magnitude to nearest, ties to even, in integers: within half a unit, and even where it is
half a unit away. -/
theorem rneShift_spec (m k : Nat) :
    2 * (rneShift m k * 2 ^ k) ≤ 2 * m + 2 ^ k ∧ 2 * m ≤ 2 * (rneShift m k * 2 ^ k) + 2 ^ k ∧
    (2 * (rneShift m k * 2 ^ k) = 2 * m + 2 ^ k ∨ 2 * m = 2 * (rneShift m k * 2 ^ k) + 2 ^ k →
      rneShift m k % 2 = 0) := by
  have hm := Nat.div_add_mod m (2 ^ k)
  have hr := Nat.mod_lt m (Nat.two_pow_pos k)
  unfold rneShift
  dsimp only
  generalize m / 2 ^ k = q at *
  generalize m % 2 ^ k = r at *
  generalize 2 ^ k = p at *
  rw [Nat.mul_comm] at hm
  split
  · rw [Nat.add_mul, one_mul]
    omega
  · omega

/-- The rounded magnitude never passes that of infinity. -/
theorem roundMag_le (m : Nat) (e : Int) : roundMag m e ≤ 0x7F800000 :=
  Nat.min_le_right _ _

/-- What is stored in a float register is the result, or some NaN for a NaN (R29, U4). -/
theorem storedAs_storeFloat (bits result : Word) : storedAs result (storeFloat bits result) := by
  unfold storedAs storeFloat anyNaN
  by_cases h : isNaN result = true
  · by_cases hb : isNaN bits = true <;> simp [h, hb]
  · simp [h]

end Sys2Proof.Machine
end

