-- ==== Sys2Proof/Laws/Register.lean ====
section
/-! SUPPORT. What reading and writing registers does (R21, R24, R73, R74). -/

namespace Sys2Proof.Machine

@[simp] theorem affineEntry_set_same (m : Affine) (k : Fin 6) (w : Word) :
    affineEntry (setAffineEntry m k w) k = w := by
  fin_cases k <;> rfl

theorem affineEntry_set_other (m : Affine) (j k : Fin 6) (w : Word) (h : j ≠ k) :
    affineEntry (setAffineEntry m k w) j = affineEntry m j := by
  fin_cases k <;> fin_cases j <;> first | rfl | exact absurd rfl h

@[simp] theorem vertexEntry_set_same (v : Vertices) (k : Fin 6) (w : Word) :
    vertexEntry (setVertexEntry v k w) k = w := by
  fin_cases k <;> rfl

theorem vertexEntry_set_other (v : Vertices) (j k : Fin 6) (w : Word) (h : j ≠ k) :
    vertexEntry (setVertexEntry v k w) j = vertexEntry v j := by
  fin_cases k <;> fin_cases j <;> first | rfl | exact absurd rfl h

/-- An RW register reads back the last word written to it (R21). -/
theorem readReg_writeReg_same (s : State) (r : Reg) (w : Word) (h : r.access = .rw) :
    readReg (writeReg s r w) r = w := by
  cases r <;> first | (simp [readReg, writeReg]; done) | exact absurd h (by decide) | cases h

/-- A register write leaves what every other register reads as alone (R24: no aliases). -/
theorem readReg_writeReg_other (s : State) (r q : Reg) (w : Word) (h : q ≠ r) :
    readReg (writeReg s r w) q = readReg s q := by
  cases r <;> cases q <;> first
    | rfl
    | exact absurd rfl h
    | exact vertexEntry_set_other _ _ _ _ (fun e => h (by rw [e]))
    | exact affineEntry_set_other _ _ _ _ (fun e => h (by rw [e]))

/-- A write to a register that is not RW is ignored (R21). -/
theorem writeReg_ignored (s : State) (r : Reg) (w : Word) (h : r.access ≠ .rw) :
    writeReg s r w = s := by
  cases r <;> first | rfl | exact absurd rfl h

/-- `Reg.all` lists every register. -/
theorem mem_all (r : Reg) : r ∈ Reg.all := by
  cases r with
  | v k => fin_cases k <;> decide
  | ctm k => fin_cases k <;> decide
  | loc k => fin_cases k <;> decide
  | xf k => fin_cases k <;> decide
  | _ => decide

/-- What `Reg.ofOffset` answers has that offset. -/
theorem offset_of_ofOffset {off : Nat} {r : Reg} (h : Reg.ofOffset off = some r) : r.offset = off := by
  have := List.find?_some h
  simpa using this

end Sys2Proof.Machine
end

