-- ==== Sys2Proof/Laws/Ops.lean ====
section
/-! SUPPORT. What each shared operation can do, said once: setting the context, a draw after it, each
command, and the host's events. -/

namespace Sys2Proof.Machine

/-- `SET_CONTEXT` writes `CTX_OK`, and `XF` with the free count only together with a set `CTX_OK`. -/
theorem setContext_cases (s : State) :
    (s.shader.toNat = 0 ∧ setContext s = setCtxOk true s) ∨
    (s.shader.toNat ≠ 0 ∧ (arith s).feq0 (matDet (arith s) (matMul (arith s) s.ctm s.loc)) = true ∧
      setContext s = setCtxOk false s) ∨
    (s.shader.toNat ≠ 0 ∧ (arith s).feq0 (matDet (arith s) (matMul (arith s) s.ctm s.loc)) = false ∧
      setContext s = { s with
        ctxOk := true
        xf := storeAffine s.freeCount (matInv (arith s) (matMul (arith s) s.ctm s.loc))
        freeCount := s.freeCount + 1 }) := by
  unfold setContext setContextBitmap
  by_cases h : s.shader.toNat = 0
  · exact .inl ⟨h, by simp [h]⟩
  · by_cases hd : (arith s).feq0 (matDet (arith s) (matMul (arith s) s.ctm s.loc)) = true
    · exact .inr (.inl ⟨h, hd, by simp [h, hd]⟩)
    · refine .inr (.inr ⟨h, by simpa using hd, ?_⟩)
      simp only [if_neg h, if_neg hd]
      rfl

/-- `SET_CONTEXT` changes nothing but `CTX_OK`, `XF` and the free count. -/
theorem setContext_frame (s : State) :
    setContext s = { s with
      ctxOk := (setContext s).ctxOk
      xf := (setContext s).xf
      freeCount := (setContext s).freeCount } := by
  rcases setContext_cases s with ⟨_, h⟩ | ⟨_, _, h⟩ | ⟨_, _, h⟩ <;> rw [h] <;> rfl

/-- After `SET_CONTEXT` a `DRAWTRI` is skipped, ends in `E_VTX`, or draws. -/
theorem drawAfterContext_cases (s : State) :
    (s.ctxOk = false ∧ drawAfterContext s = s) ∨
    (s.ctxOk = true ∧ ∃ k, fixVertices s.params.vtxRound s.vtx = .error k ∧
      drawAfterContext s = raise .vtx (BitVec.ofNat 32 k) s) ∨
    (s.ctxOk = true ∧ ∃ t, fixVertices s.params.vtxRound s.vtx = .ok t ∧
      drawAfterContext s = drawTriangle t s) := by
  unfold drawAfterContext
  cases hc : s.ctxOk with
  | false => exact .inl ⟨rfl, by simp⟩
  | true =>
    cases hf : fixVertices s.params.vtxRound s.vtx with
    | error k => exact .inr (.inl ⟨rfl, k, rfl, by simp⟩)
    | ok t => exact .inr (.inr ⟨rfl, t, rfl, by simp⟩)

/-- A failed configuration check is numbered 1 to 6 (R142, R202). -/
theorem configCheck_range (s : State) (n : Nat) (h : configCheck s = some n) : 1 ≤ n ∧ n ≤ 6 := by
  unfold configCheck at h
  repeat' split at h
  all_goals first | (injection h with h; omega) | cases h

/-- A passed configuration check (R142): the canvas fits DM, and in bitmap mode the texture fits TM and
is not empty (R58). -/
theorem configCheck_none (s : State) (h : configCheck s = none) :
    s.shader.toNat ≤ 1 ∧ s.fbW.toNat ≤ 65535 ∧ s.fbH.toNat ≤ 65535 ∧
    s.fbW.toNat * s.fbH.toNat ≤ s.params.dmPixels ∧
    (s.shader.toNat = 1 → 1 ≤ s.texW.toNat ∧ 1 ≤ s.texH.toNat ∧
      s.texW.toNat ≤ 65535 ∧ s.texH.toNat ≤ 65535 ∧
      s.texW.toNat * s.texH.toNat ≤ s.params.tmPixels) := by
  unfold configCheck Config.maxDim at h
  repeat' split at h
  all_goals cases h
  all_goals
    refine ⟨by omega, by omega, by omega, by omega, fun _ => ?_⟩
    refine ⟨by omega, by omega, by omega, by omega, by omega⟩

/-- A conversion that fails names a position 0 to 5 (R143). -/
theorem fixVertices_error_range (r : VtxRound) (v : Vertices) (k : Nat)
    (h : fixVertices r v = .error k) : k ≤ 5 := by
  unfold fixVertices fixAt at h
  cases h1 : fix r v.x1 <;> simp only [h1] at h
  · cases h; omega
  cases h2 : fix r v.y1 <;> simp only [h2] at h
  · cases h; omega
  cases h3 : fix r v.x2 <;> simp only [h3] at h
  · cases h; omega
  cases h4 : fix r v.y2 <;> simp only [h4] at h
  · cases h; omega
  cases h5 : fix r v.x3 <;> simp only [h5] at h
  · cases h; omega
  cases h6 : fix r v.y3 <;> simp only [h6] at h
  · cases h; omega
  cases h

/-- Conversions that succeed: each coordinate is what `FIX` gives of its register (R143). -/
theorem fixVertices_ok (r : VtxRound) (v : Vertices) (t : Fixed) (h : fixVertices r v = .ok t) :
    fix r v.x1 = some t.x1 ∧ fix r v.y1 = some t.y1 ∧ fix r v.x2 = some t.x2 ∧
    fix r v.y2 = some t.y2 ∧ fix r v.x3 = some t.x3 ∧ fix r v.y3 = some t.y3 := by
  unfold fixVertices fixAt at h
  cases h1 : fix r v.x1 <;> simp only [h1] at h
  · cases h
  cases h2 : fix r v.y1 <;> simp only [h2] at h
  · cases h
  cases h3 : fix r v.x2 <;> simp only [h3] at h
  · cases h
  cases h4 : fix r v.y2 <;> simp only [h4] at h
  · cases h
  cases h5 : fix r v.x3 <;> simp only [h5] at h
  · cases h
  cases h6 : fix r v.y3 <;> simp only [h6] at h
  · cases h
  cases h
  exact ⟨rfl, rfl, rfl, rfl, rfl, rfl⟩

/-- Everything `exec` can do with a `DRAWTRI` (R213). -/
theorem execDrawtri_cases (s : State) :
    (inFault s = true ∧ execDrawtri s = .next s) ∨
    (inFault s = false ∧ ∃ n, configCheck s = some n ∧
      execDrawtri s = .next (raise .cfg (BitVec.ofNat 32 n) s)) ∨
    (inFault s = false ∧ configCheck s = none ∧
      execDrawtri s = .next (drawAfterContext (setContext s))) := by
  unfold execDrawtri
  cases hf : inFault s with
  | true => exact .inl ⟨rfl, by simp⟩
  | false =>
    cases hc : configCheck s with
    | some n => exact .inr (.inl ⟨rfl, n, rfl, by simp⟩)
    | none => exact .inr (.inr ⟨rfl, rfl, by simp⟩)

/-- Everything `exec` can do with a `SETCTX` (R116). -/
theorem execSetctx_cases (s : State) :
    (inFault s = true ∧ execSetctx s = .next s) ∨
    (inFault s = false ∧ s.shader.toNat > 1 ∧ execSetctx s = .next (raise .cfg 1 s)) ∨
    (inFault s = false ∧ s.shader.toNat ≤ 1 ∧ execSetctx s = .next (setContext s)) := by
  unfold execSetctx
  cases hf : inFault s with
  | true => exact .inl ⟨rfl, by simp⟩
  | false =>
    by_cases h : s.shader.toNat > 1
    · exact .inr (.inl ⟨rfl, h, by simp [h]⟩)
    · exact .inr (.inr ⟨rfl, by omega, by simp [h]⟩)

/-- Everything a word written to `CMD` can do (R81, R205). -/
theorem command_cases (c : Word) (s : State) :
    (inFault s = true ∧ c ≠ 0x0000000F ∧ command c s = .next s) ∨
    (∃ i, decode c = .ok i ∧ command c s = exec i s) ∨
    (inFault s = false ∧ (∀ i, decode c ≠ .ok i) ∧ command c s = .next (raise .cmd c s)) := by
  unfold command
  by_cases hf : (inFault s && c != encode .reset) = true
  · rw [if_pos hf]
    simp only [Bool.and_eq_true, bne_iff_ne, encode] at hf
    exact .inl ⟨hf.1, hf.2, rfl⟩
  · rw [if_neg hf]
    cases hd : decode c with
    | ok i => exact .inr (.inl ⟨i, rfl, rfl⟩)
    | error e =>
      refine .inr (.inr ⟨?_, by simp, rfl⟩)
      by_cases hc : c = encode .reset
      · subst hc
        rw [show decode (encode .reset) = .ok .reset by decide] at hd
        cases hd
      · simpa [hc] using hf

end Sys2Proof.Machine
end

