-- ==== Sys2Proof/Laws/Bus.lean ====
section
/-! SUPPORT. What a step can do, by the event it takes and what the event's address names (R12, R56, R174
to R178, R220). -/

namespace Sys2Proof.Machine

/-- With no event to come a step changes nothing. -/
theorem step_idle (s : State) (h : s.pending = []) : step s = .next s := by
  simp only [step, takeEvent, h]

/-- A step that takes a power-on event. -/
theorem step_powerOn (s : State) (rest : List HostEvent) (h : s.pending = .powerOn :: rest) :
    step s = .next (powerOnReset { s with pending := rest }) := by
  simp only [step, takeEvent, h, hostEvent]

/-- A step that takes a bus write, by what the address names. -/
theorem step_write (s : State) (rest : List HostEvent) (addr width : Nat) (w : Word)
    (h : s.pending = .write addr width w :: rest) :
    (∃ off, locate s.params addr width = some (.reg off) ∧
      step s = regWr off w (respond .done { s with pending := rest })) ∨
    (∃ sp i, locate s.params addr width = some (.mem sp i) ∧
      step s = .next (memWrite (respond .done { s with pending := rest }) sp i w)) ∨
    (locate s.params addr width = none ∧
      step s = .next (respond .busError { s with pending := rest })) := by
  cases hl : locate s.params addr width with
  | none => exact .inr (.inr ⟨rfl, by simp only [step, takeEvent, h, hostEvent, busWrite, hl]⟩)
  | some t =>
    cases t with
    | reg off =>
      exact .inl ⟨off, rfl, by simp only [step, takeEvent, h, hostEvent, busWrite, hl]⟩
    | mem sp i =>
      exact .inr (.inl ⟨sp, i, rfl, by simp only [step, takeEvent, h, hostEvent, busWrite, hl]⟩)

/-- A step that takes a bus read changes the record of responses and nothing else. -/
theorem step_read (s : State) (rest : List HostEvent) (addr width : Nat)
    (h : s.pending = .read addr width :: rest) :
    step s = .next (respond (busReadValue addr width s) { s with pending := rest }) := by
  simp only [step, takeEvent, h, hostEvent]
  rfl

/-- A write to the register aperture is a command, a register write, or ignored. -/
theorem regWr_cases (off : Nat) (w : Word) (s : State) :
    (Reg.ofOffset off = some .cmd ∧ regWr off w s = command w s) ∨
    (∃ r, Reg.ofOffset off = some r ∧ r ≠ .cmd ∧ regWr off w s = .next (writeReg s r w)) ∨
    (Reg.ofOffset off = none ∧ regWr off w s = .next s) := by
  unfold regWr
  cases hr : Reg.ofOffset off with
  | none => exact .inr (.inr ⟨rfl, rfl⟩)
  | some r =>
    by_cases hc : r = .cmd
    · subst hc
      exact .inl ⟨rfl, rfl⟩
    · refine .inr (.inl ⟨r, rfl, hc, ?_⟩)
      cases r <;> first | rfl | exact absurd rfl hc

/-- What an accepted address names lies inside its aperture (R56, R71). -/
theorem locate_mem_lt (p : Params) (addr width : Nat) (sp : Space) (i : Nat)
    (h : locate p addr width = some (.mem sp i)) : i < pixelsOf p sp := by
  unfold locate at h
  split at h
  · cases h
  · split at h
    · cases h
    · split at h
      · cases h
        show _ < p.dmPixels
        omega
      · split at h
        · cases h
          show _ < p.tmPixels
          omega
        · cases h

end Sys2Proof.Machine
end

