-- ==== Sys2Proof/Laws/PerInstr.lean ====
section
/-! SUPPORT. A statement about every command as syntax, one lemma per constructor: the encoder writes a
word the decoder reads back (R82). -/

namespace Sys2Proof.Laws.RoundTrip

/-- The command is well formed and its word decodes to it. -/
def Statement (i : Instr) : Prop := i.wf = true ∧ decode (encode i) = .ok i

theorem nop : Statement .nop := by unfold Statement; decide

theorem setctx : Statement .setctx := by unfold Statement; decide

theorem drawtri : Statement .drawtri := by unfold Statement; decide

theorem reset : Statement .reset := by unfold Statement; decide

end Sys2Proof.Laws.RoundTrip
end

