-- ==== Sys2Proof/Machine/Listing.lean ====
section
/-! DEFINITION. Host programs: the listing lines of R91 with their encoding, and the host's
pseudo-instructions of R92 (R187 to R193) as lists of lines, over the words the host finally writes. The
host's own float work (R185, R186, the rectangle of R188) is out of scope (R5). -/

namespace Sys2Proof.Machine

/-- One line of a listing (R91). -/
inductive Line where
  | wr (r : Reg) (value : Word)
  | rd (r : Reg)
  | dmw (index : Nat) (p : Word)
  | dmr (index : Nat)
  | tmw (index : Nat) (p : Word)
  | tmr (index : Nat)
  | nop
  | setctx
  | drawtri
  | reset
deriving DecidableEq, Repr

/-- The bus transaction a line stands for (R91): 32 bits at the address of its target. -/
def lineEvent (p : Params) (line : Line) : HostEvent :=
  match line with
  | .wr r value => .write (busAddress p (.reg r.offset)) 32 value
  | .rd r => .read (busAddress p (.reg r.offset)) 32
  | .dmw index w => .write (busAddress p (.mem .dm index)) 32 w
  | .dmr index => .read (busAddress p (.mem .dm index)) 32
  | .tmw index w => .write (busAddress p (.mem .tm index)) 32 w
  | .tmr index => .read (busAddress p (.mem .tm index)) 32
  | .nop => commandWrite p .nop
  | .setctx => commandWrite p .setctx
  | .drawtri => commandWrite p .drawtri
  | .reset => commandWrite p .reset

/-- The transactions of a listing, in order. -/
def listing (p : Params) (lines : List Line) : List HostEvent := lines.map (lineEvent p)

/-- A point in device space, as the two words the host writes to vertex registers (R22). -/
abbrev Point := Word × Word

/-- `SHADETRI` (R187): the six vertex registers in order, then `drawtri`. -/
def shadeTri (p1 p2 p3 : Point) : List Line :=
  [.wr (.v 0) p1.1, .wr (.v 1) p1.2, .wr (.v 2) p2.1, .wr (.v 3) p2.2, .wr (.v 4) p3.1,
    .wr (.v 5) p3.2, .drawtri]

/-- `SHADERECT` (R188) of a rectangle that meets the canvas, from its four corners: two triangles. -/
def shadeRect (tl tr bl br : Point) : List Line := shadeTri tl tr bl ++ shadeTri tr br bl

/-- `FILLRECT` (R189), from the pixel word of its colour. -/
def fillRect (colour : Word) (tl tr bl br : Point) : List Line :=
  [.wr .shader 0, .wr .color colour] ++ shadeRect tl tr bl br

/-- Consecutive words to TM from an index on (R190). -/
def loadTexture : Nat → List Word → List Line
  | _, [] => []
  | i, w :: ws => .tmw i w :: loadTexture (i + 1) ws

/-- `FILLBITMAPRECT` (R190), from the six words of the local matrix `L`. -/
def fillBitmapRect (width height : Word) (src : List Word) (l0 l1 l2 l3 l4 l5 : Word)
    (tl tr bl br : Point) : List Line :=
  loadTexture 0 src ++
  [.wr .texW width, .wr .texH height, .wr (.loc 0) l0, .wr (.loc 1) l1, .wr (.loc 2) l2,
    .wr (.loc 3) l3, .wr (.loc 4) l4, .wr (.loc 5) l5, .wr .shader 1] ++
  shadeRect tl tr bl br

/-- The fan of R191 anchored at a point: one triangle for each two consecutive points. -/
def fan (anchor : Point) : List Point → List Line
  | p :: q :: rest => shadeTri anchor p q ++ fan anchor (q :: rest)
  | _ => []

/-- `FILLPOLY` (R191): nothing for fewer than three points. -/
def fillPoly (colour : Word) (points : List Point) : List Line :=
  match points with
  | anchor :: p :: q :: rest =>
    [.wr .shader 0, .wr .color colour] ++ fan anchor (p :: q :: rest)
  | _ => []

/-- `CLEAR` (R192) of a canvas of `n` pixels: a host write loop from index `i` on. -/
def clearFrom (colour : Word) (i : Nat) : Nat → List Line
  | 0 => []
  | n + 1 => .dmw i colour :: clearFrom colour (i + 1) n

/-- Creating a blank canvas (R193). -/
def newCanvas (width height : Word) : List Line :=
  [.reset, .wr .fbW width, .wr .fbH height] ++ clearFrom 0 0 (width.toNat * height.toNat)

end Sys2Proof.Machine
end

