-- ==== Sys2Proof/Tests/Slice0.lean ====
section
/-! SUPPORT. Tests: ill-formed terms, words decoded, vectors of 95_test_vectors.md, and for every
obligation with hypotheses a state that meets them (`test_witness_…`, named after it). Expected values
come from the spec's vectors or by hand from its rules. -/

-- The theorems one after the other: each has its own kernel evaluation, and many at once take much memory.
set_option Elab.async false

namespace Sys2Proof.Tests

open Sys2Proof Sys2Proof.Machine

/-! ### Helpers -/

/-- The reset machine with some events to come. -/
def waiting (evs : List HostEvent) : State := { State.reset with pending := evs }

/-- The reset machine in the fault state of `E_CMD(3)`, with some events to come. -/
def faulted (evs : List HostEvent) : State :=
  { State.reset with err := 1, errinfo := 3, pending := evs }

/-- The reset machine with a listing to come. -/
def waitingLines (lines : List Line) : State := waiting (listing Config.params lines)

/-- Write one word at `n` indices from `i` on. -/
def fill (w : Word) (m : Memory) (i : Nat) : Nat → Memory
  | 0 => m
  | n + 1 => fill w (writeWord m i w) (i + 1) n

/-- A 4×4 canvas of opaque black, colour opaque red, the triangle (0,0), (4,0), (0,4). -/
def canvas : State :=
  { State.reset with
    fbW := 4
    fbH := 4
    color := 0xFFFF0000
    vtx := ⟨0, 0, 0x40800000, 0, 0, 0x40800000⟩
    dm := fill 0xFF000000 [] 0 16 }

/-- The converted vertices of `canvas`. -/
def canvasFixed : Fixed := ⟨0, 0, 64, 0, 0, 64⟩

/-- Program P4 before its first `drawtri`: the 2×2 texture of the spec, scaled by 2. -/
def textured : State :=
  { canvas with
    shader := 1
    texW := 2
    texH := 2
    loc := ⟨0x40000000, 0, 0, 0, 0x40000000, 0⟩
    tm := writeWord (writeWord (writeWord (writeWord [] 0 0xFFFF0000) 1 0xFF00FF00)
      2 0xFF0000FF) 3 0x80404040 }

/-- Do these pixel words stand in DM from index 0 on? -/
def dmHolds (ws : List Word) (r : Host.Outcome State Fault Refusal) : Bool :=
  match r with
  | .next t => decide (memRead t .dm 0 ws.length = ws)
  | _ => false

/-- What a check says of the next state; false of a stop. -/
def after (p : State → Bool) (r : Host.Outcome State Fault Refusal) : Bool :=
  match r with
  | .next t => p t
  | _ => false

/-! ### Well-formedness -/

theorem test_wf_all_commands :
    Instr.wf .nop = true ∧ Instr.wf .setctx = true ∧ Instr.wf .drawtri = true ∧
    Instr.wf .reset = true := by decide

theorem test_wf_refuses_narrow_write : HostEvent.wf (.write 0 16 0) = false := by decide

theorem test_wf_refuses_unaligned_write : HostEvent.wf (.write 2 32 0) = false := by decide

theorem test_wf_refuses_wide_read : HostEvent.wf (.read 0 64) = false := by decide

theorem test_wf_refuses_unaligned_read : HostEvent.wf (.read 5 32) = false := by decide

theorem test_wf_refuses_offset_past_aperture :
    Target.wf Config.params (.reg 256) = false := by decide

theorem test_wf_refuses_odd_offset : Target.wf Config.params (.reg 6) = false := by decide

theorem test_wf_refuses_index_past_dm :
    Target.wf Config.params (.mem .dm 4194304) = false := by decide +kernel

theorem test_wf_refuses_index_past_tm :
    Target.wf Config.params (.mem .tm 4194304) = false := by decide +kernel

theorem test_wf_accepts_the_parameters : Config.params.wf = true := by decide +kernel

theorem test_wf_refuses_empty_memories :
    Params.wf { Config.params with dmPixels := 0 } = false ∧
    Params.wf { Config.params with tmPixels := 0 } = false := by decide +kernel

theorem test_wf_refuses_unaligned_bases :
    Params.wf { Config.params with regBase := 2 } = false ∧
    Params.wf { Config.params with dmBase := 0x01000001 } = false ∧
    Params.wf { Config.params with tmBase := 0x02000003 } = false := by decide +kernel

theorem test_wf_refuses_overlapping_apertures :
    Params.wf { Config.params with dmBase := 252 } = false ∧
    Params.wf { Config.params with regBase := 0x02000000 } = false ∧
    Params.wf { Config.params with tmBase := 0x01FFFFFC } = false := by decide +kernel

/-! ### Decoding (95_test_vectors.md 2.4; R82, R83) -/

theorem test_decode_nop : decode 0x00000000 = .ok .nop := by decide

theorem test_decode_setctx : decode 0x00000001 = .ok .setctx := by decide

theorem test_decode_drawtri : decode 0x00000002 = .ok .drawtri := by decide

theorem test_decode_reset : decode 0x0000000F = .ok .reset := by decide

theorem test_decode_refuses_by_name :
    decode 0x00000003 = .error (.unknownOp 0x00000003) ∧
    decode 0x0000000E = .error (.unknownOp 0x0000000E) ∧
    decode 0x00000010 = .error (.unknownOp 0x00000010) ∧
    decode 0x00000102 = .error (.reservedBits 0x00000102) ∧
    decode 0x80000000 = .error (.reservedBits 0x80000000) ∧
    decode 0xFFFFFFFF = .error (.reservedBits 0xFFFFFFFF) := by decide

theorem test_decode_table_words :
    decodeTableWord 32 0 = some .nop ∧ decodeTableWord 32 1 = some .setctx ∧
    decodeTableWord 32 2 = some .drawtri ∧ decodeTableWord 32 15 = some .reset ∧
    decodeTableWord 32 258 = none := by decide

/-- R91: the encodings of three listing lines. -/
theorem test_listing_encodings :
    listing Config.params [.wr (.v 0) 0x41200000, .drawtri, .dmw 5 0xFFFF0000] =
      [.write 0x40 32 0x41200000, .write 0 32 2, .write 0x01000014 32 0xFFFF0000] := by
  decide +kernel

/-! ### Steps -/

/-- The first step after reset runs the command placed for it. -/
theorem test_first_step :
    after (fun t => statusWord t == 0 && t.pending == [] && t.responses == [.done])
      (step (State.reset.withFetchWord 32 15)) = true := by decide +kernel

/-- P3: an illegal word raises `E_CMD` with it. -/
theorem test_step_illegal_word :
    after (fun t => statusWord t == 0x10 && t.errinfo == 3)
      (step (State.reset.withFetchWord 32 3)) = true := by decide +kernel

theorem test_nop : exec .nop canvas = .next canvas := by rfl

/-- `RESET` out of the fault state keeps DM. -/
theorem test_reset :
    after (fun t => statusWord t == 0 && t.fbW == 0 && t.ctm == Affine.identity && t.dm == canvas.dm)
      (exec .reset { canvas with err := 3, ctm := Affine.zero }) = true := by decide +kernel

/-- V-S3. -/
theorem test_setctx_translated :
    after (fun t => t.ctxOk && t.xf ==
        ⟨0x3F000000, 0x80000000, 0xC0A00000, 0x80000000, 0x3E800000, 0xC0A00000⟩)
      (exec .setctx { State.reset with
        shader := 1
        ctm := ⟨0x3F800000, 0, 0x41200000, 0, 0x3F800000, 0x41A00000⟩
        loc := ⟨0x40000000, 0, 0, 0, 0x40800000, 0⟩ }) = true := by decide +kernel

/-- V-S7: a determinant that underflows is singular. -/
theorem test_setctx_underflow :
    after (fun t => !t.ctxOk && t.err == 0 && t.xf == Affine.zero)
      (exec .setctx { State.reset with
        shader := 1, loc := ⟨0x0DA24260, 0, 0, 0, 0x0DA24260, 0⟩ }) = true := by decide +kernel

/-- The first half of P4: ten pixels sampled with scale 2. -/
theorem test_drawtri_textured :
    dmHolds [0xFFFF0000, 0xFFFF0000, 0xFF00FF00, 0xFF00FF00,
        0xFFFF0000, 0xFFFF0000, 0xFF00FF00, 0xFF000000,
        0xFF0000FF, 0xFF0000FF, 0xFF000000, 0xFF000000,
        0xFF0000FF, 0xFF000000, 0xFF000000, 0xFF000000]
      (exec .drawtri textured) = true := by decide +kernel

/-- V-R6, first triangle, on a 6×6 canvas: rows 1 to 3, fractional vertices. -/
theorem test_drawtri_fractional :
    after (fun t => (List.range 36).filter (fun i => (byteAt? t.dm (4 * i)).isSome) ==
        [7, 8, 9, 13, 14, 19])
      (exec .drawtri { State.reset with
        fbW := 6, fbH := 6, color := 0xFFFFFFFF
        vtx := ⟨0x3F000000, 0x3F000000, 0x40900000, 0x3F000000, 0x3F000000, 0x40600000⟩ }) = true := by
  decide +kernel

/-- V-B5, V-B7 and the fitting channels of V-B12. -/
theorem test_blend :
    blend 0 0 0 0 0x80402010 0x80404040 = 0xC0604030 ∧
    blend 0 0 0 0 0xFE000000 0xFF010203 = 0xFF000000 ∧
    blend 0 0x11 0 0 0x40FF0000 0xFFFFFFFF = 0xFF11BFBF := by decide +kernel

/-- The ties of 95_test_vectors.md 2.3, under both roundings, and the ends of the range. -/
theorem test_fix :
    fix .halfEven 0x3DC00000 = some 2 ∧ fix .halfEven 0xBD000000 = some 0 ∧
    fix .halfAway 0x3DC00000 = some 2 ∧ fix .halfAway 0xBD000000 = some (-1) ∧
    fix .halfEven 0x4CFFFFFF = some 2147483520 ∧ fix .halfEven 0x4D000000 = none ∧
    fix .halfEven 0xCD000000 = some (-2147483648) ∧ fix .halfEven 0xCD000001 = none := by
  decide +kernel

/-- `TEXIDX` vectors. -/
theorem test_texidx :
    texIdx ieee 0 0xBE800000 4 = 0 ∧ texIdx ieee 0 0x3F7FFFFF 4 = 0 ∧
    texIdx ieee 0 0x3F800000 4 = 1 ∧ texIdx ieee 0 0x40800000 4 = 3 ∧
    texIdx ieee 0 0x7FC00000 4 = 0 := by decide +kernel

/-- The operands of a difference are not exchanged, and the two zeros are told apart (R110, R111). -/
theorem test_fsub :
    ieee.fsub 0x40400000 0x3F800000 = 0x40000000 ∧ ieee.fsub 0x80000000 0x00000000 = 0x80000000 ∧
    ieee.fsub 0x3F800000 0x3F800000 = 0x00000000 ∧ ieee.fmul 0x80000000 0x3F800000 = 0x80000000 := by
  decide +kernel

/-! ### Witnesses: encodings, steps, registers -/

theorem test_witness_BusDecodeAndEncodeAgree :
    Config.params.wf = true ∧ Target.wf Config.params (.reg 0) = true ∧
    Target.wf Config.params (.reg 252) = true ∧ Target.wf Config.params (.mem .dm 0) = true ∧
    Target.wf Config.params (.mem .dm 4194303) = true ∧
    Target.wf Config.params (.mem .tm 4194303) = true ∧
    locate Config.params 252 32 = some (.reg 252) ∧
    locate Config.params 0x01000000 32 = some (.mem .dm 0) ∧
    locate Config.params 0x02FFFFFC 32 = some (.mem .tm 4194303) ∧
    commandWrite Config.params .reset = .write 0 32 0xF := by decide +kernel

theorem test_witness_StepRunsTheDecodedCommand :
    (waiting [.write 0 32 2]).params.wf = true ∧
    (waiting [.write 0 32 2]).pending =
      .write (busAddress (waiting [.write 0 32 2]).params (.reg 0)) 32 2 :: [] ∧
    decode 2 = .ok .drawtri := by decide +kernel

theorem test_witness_FetchWordRunsItsCommand : State.reset.params.wf = true := by decide +kernel

theorem test_witness_EveryStepCompletes : State.reset.pending = [] := rfl

theorem test_witness_CommandsIgnoredInFaultState :
    (faulted []).err ≠ 0 ∧ Instr.drawtri ≠ .reset := by decide

theorem test_witness_IllegalCommandRaisesECmd :
    (waiting [.write 0 32 3]).params.wf = true ∧
    (waiting [.write 0 32 3]).pending =
      .write (busAddress (waiting [.write 0 32 3]).params (.reg 0)) 32 3 :: [] ∧
    (waiting [.write 0 32 3]).err = 0 ∧ (3 : Word) ≠ 0 ∧ (3 : Word) ≠ 1 ∧ (3 : Word) ≠ 2 ∧
    (3 : Word) ≠ 0xF := by decide +kernel

theorem test_witness_FaultStateIgnoresCommandWords :
    (faulted [.write 0 32 2]).params.wf = true ∧
    (faulted [.write 0 32 2]).pending =
      .write (busAddress (faulted [.write 0 32 2]).params (.reg 0)) 32 2 :: [] ∧
    (faulted [.write 0 32 2]).err ≠ 0 ∧ (2 : Word) ≠ 0xF := by decide +kernel

theorem test_witness_FaultStateLeftOnlyByReset :
    (faulted []).err ≠ 0 ∧ (faulted [.powerOn]).err ≠ 0 ∧ (faulted [.write 0 32 0xF]).err ≠ 0 := by
  decide

theorem test_witness_PowerOnResetsAndForgets :
    (faulted [.powerOn, .read 0 32]).pending = .powerOn :: [.read 0 32] := rfl

theorem test_witness_RegisterWriteStoresTheWord :
    (faulted [.write 0x10 32 5]).params.wf = true ∧
    (faulted [.write 0x10 32 5]).pending =
      .write (busAddress (faulted [.write 0x10 32 5]).params (.reg (Reg.offset .fbW))) 32 5 :: [] ∧
    Reg.access .fbW = .rw ∧
    (waiting [.write 0x94 32 5]).pending =
      .write (busAddress (waiting []).params (.reg (Reg.offset (.loc 5)))) 32 5 :: [] ∧
    Reg.access (.loc 5) = .rw := by decide +kernel

/-- Offsets 0x004 (RO), 0x0B4 (the last `XF`), 0x00C and 0x0FC (reserved). -/
theorem test_witness_OtherRegisterWritesAreIgnored :
    (waiting [.write 0xFC 32 5]).params.wf = true ∧
    (waiting [.write 0xFC 32 5]).pending =
      .write (busAddress (waiting [.write 0xFC 32 5]).params (.reg 0xFC)) 32 5 :: [] ∧
    (0xFC < 256 ∧ 0xFC % 4 = 0 ∧ 0xFC ≠ 0) ∧
    ∀ off ∈ [0x004, 0x00C, 0x0B4, 0x0FC], ∀ r : Reg, r.offset = off → r.access ≠ .rw := by
  refine ⟨by decide +kernel, by decide +kernel, by decide, ?_⟩
  have h : ∀ off ∈ [0x004, 0x00C, 0x0B4, 0x0FC], ∀ r ∈ Reg.all, r.offset = off → r.access ≠ .rw := by
    decide +kernel
  exact fun off ho r => h off ho r (mem_all r)

/-- A register (0x0B4), `CMD` (0) and a reserved offset (0x0FC). -/
theorem test_witness_RegisterReadsReturnAndChangeNothing :
    (waiting [.read 0xB4 32]).params.wf = true ∧
    (waiting [.read 0xB4 32]).pending =
      .read (busAddress (waiting [.read 0xB4 32]).params (.reg 0xB4)) 32 :: [] ∧
    Reg.offset (.xf 5) = 0xB4 ∧ Reg.xf 5 ≠ .cmd ∧
    (waiting [.read 0 32]).pending = .read (busAddress (waiting []).params (.reg 0)) 32 :: [] ∧
    (waiting [.read 0xFC 32]).pending =
      .read (busAddress (waiting []).params (.reg 0xFC)) 32 :: [] ∧
    ∀ r : Reg, r.offset ≠ 0xFC := by
  refine ⟨by decide +kernel, by decide +kernel, by decide, by decide, by decide +kernel,
    by decide +kernel, ?_⟩
  have h : ∀ r ∈ Reg.all, r.offset ≠ 0xFC := by decide +kernel
  exact fun r => h r (mem_all r)

/-- The first index of DM and the last of TM. -/
theorem test_witness_PixelWriteStoresTheWord :
    (waiting [.write 0x01000000 32 7]).params.wf = true ∧
    (waiting [.write 0x01000000 32 7]).pending =
      .write (busAddress (waiting []).params (.mem .dm 0)) 32 7 :: [] ∧
    0 < pixelsOf (waiting []).params .dm ∧
    (waiting [.write 0x02FFFFFC 32 7]).pending =
      .write (busAddress (waiting []).params (.mem .tm 4194303)) 32 7 :: [] ∧
    4194303 < pixelsOf (waiting []).params .tm := by decide +kernel

theorem test_witness_PixelReadReturnsTheWord :
    (waiting [.read 0x01FFFFFC 32]).params.wf = true ∧
    (waiting [.read 0x01FFFFFC 32]).pending =
      .read (busAddress (waiting []).params (.mem .dm 4194303)) 32 :: [] ∧
    4194303 < pixelsOf (waiting []).params .dm := by decide +kernel

/-- Each reason for a bus error: a width, an alignment, the first address past each aperture. -/
theorem test_witness_RefusedTransactionsChangeNothing :
    (waiting [.write 0 16 7]).pending = .write 0 16 7 :: [] ∧ (16 ≠ 32) ∧
    (waiting [.read 2 32]).pending = .read 2 32 :: [] ∧ (2 % 4 ≠ 0) ∧
    ∀ addr ∈ [256, 0x00FFFFFC, 0x03000000],
      (addr < Config.params.regBase ∨ Config.params.regBase + 256 ≤ addr) ∧
      (addr < Config.params.dmBase ∨
        Config.params.dmBase + 4 * Config.params.dmPixels ≤ addr) ∧
      (addr < Config.params.tmBase ∨
        Config.params.tmBase + 4 * Config.params.tmPixels ≤ addr) := by decide +kernel

/-- A step that changes a byte of TM. -/
theorem test_witness_TextureChangedOnlyByTheHost :
    after (fun t => readByte t .tm 0 != readByte textured .tm 0)
      (step { textured with pending := [.write 0x02000000 32 0x12345678] }) = true := by
  decide +kernel

/-! ### Witnesses: floats -/

/-- A NaN; an infinity over a finite value; two infinities, equal and not; an infinity against a zero and
against a value that is none; both zeros as divisors. -/
theorem test_witness_FloatSpecialCases :
    isNaN 0x7F800001 = true ∧ isNaN 0xFFFFFFFF = true ∧
    (isInf 0xFF800000 = true ∧ isFinite 0x00000001 = true ∧ isFinite 0x7F7FFFFF = true) ∧
    (isInf 0x7F800000 = true ∧ (0x7F800000 : Word) ≠ 0xFF800000) ∧
    (isNaN 0x80000000 = false ∧ ieee.feq0 0x80000000 = true ∧ isNaN 0xFF800000 = false ∧
      ieee.feq0 0xFF800000 = false) ∧
    ieee.feq0 0x00000001 = false ∧ ieee.feq0 0x00000000 = true := by decide +kernel

theorem test_witness_SmallIntegersAndCentresAreExact : 0 ≤ 65535 ∧ 65535 ≤ 65535 := by decide

/-- In the range at its very end (the largest finite value and a little less than half its last place), past
it by the least amount (exactly half), and an exact zero. -/
theorem test_witness_AdditionIsCorrectlyRounded :
    isFinite 0x7F7FFFFF = true ∧ isFinite 0x72FFFFFF = true ∧
    inFloatRange 1 (unitsOf 0x7F7FFFFF + unitsOf 0x72FFFFFF) ∧
    isFinite 0x73000000 = true ∧ ¬ inFloatRange 1 (unitsOf 0x7F7FFFFF + unitsOf 0x73000000) ∧
    isFinite 0x00000001 = true ∧ isFinite 0x80000001 = true ∧
    unitsOf 0x00000001 + unitsOf 0x80000001 = 0 := by
  unfold inFloatRange
  decide +kernel

theorem test_witness_SubtractionIsCorrectlyRounded :
    isFinite 0xFF7FFFFF = true ∧ isFinite 0x72FFFFFF = true ∧
    inFloatRange 1 (unitsOf 0xFF7FFFFF - unitsOf 0x72FFFFFF) ∧
    isFinite 0x73000000 = true ∧ ¬ inFloatRange 1 (unitsOf 0xFF7FFFFF - unitsOf 0x73000000) ∧
    isFinite 0x80000000 = true ∧ isFinite 0x00000000 = true ∧
    unitsOf 0x80000000 - unitsOf 0x00000000 = 0 := by
  unfold inFloatRange
  decide +kernel

theorem test_witness_MultiplicationIsCorrectlyRounded :
    isFinite 0x7F7FFFFF = true ∧ isFinite 0xBF800000 = true ∧
    inFloatRange (2 ^ 149) (unitsOf 0x7F7FFFFF * unitsOf 0xBF800000) ∧
    isFinite 0x3F800001 = true ∧
    ¬ inFloatRange (2 ^ 149) (unitsOf 0x7F7FFFFF * unitsOf 0x3F800001) := by
  unfold inFloatRange
  decide +kernel

theorem test_witness_DivisionIsCorrectlyRounded :
    isFinite 0x7F7FFFFF = true ∧ isFinite 0xBF800000 = true ∧ unitsOf 0xBF800000 ≠ 0 ∧
    inFloatRange (unitsOf 0xBF800000) (unitsOf 0x7F7FFFFF * 2 ^ 149) ∧
    isFinite 0x3F7FFFFF = true ∧ unitsOf 0x3F7FFFFF ≠ 0 ∧
    ¬ inFloatRange (unitsOf 0x3F7FFFFF) (unitsOf 0x7F7FFFFF * 2 ^ 149) := by
  unfold inFloatRange
  decide +kernel

/-! ### Witnesses: shader engine and blender -/

theorem test_witness_SetctxColourModeSucceeds :
    State.reset.err = 0 ∧ State.reset.shader.toNat = 0 := by decide

theorem test_witness_SetctxUnknownModeRaisesECfg :
    State.reset.err = 0 ∧ 1 < ({ State.reset with shader := 2 } : State).shader.toNat := by decide

/-- V-S2 for the loaded inverse; V-S6 for the zero determinant. -/
theorem test_witness_SetctxBitmapModeLoadsTheInverse :
    textured.err = 0 ∧ textured.shader.toNat = 1 ∧ textured.params.numerics = .binary32 ∧
    matMul ieee textured.ctm textured.loc = ⟨0x40000000, 0, 0, 0, 0x40000000, 0⟩ ∧
    ieee.feq0 (matDet ieee ⟨0x40000000, 0, 0, 0, 0x40000000, 0⟩) = false ∧
    matMul ieee textured.ctm ⟨0x3F800000, 0x40000000, 0, 0x40000000, 0x40800000, 0⟩ =
      ⟨0x3F800000, 0x40000000, 0, 0x40000000, 0x40800000, 0⟩ ∧
    ieee.feq0 (matDet ieee ⟨0x3F800000, 0x40000000, 0, 0x40000000, 0x40800000, 0⟩) = true := by
  decide +kernel

/-- V-S8 for the NaN; the largest finite scales for a determinant that overflows. -/
theorem test_witness_NonFiniteDeterminantIsUsable :
    let s := { textured with loc := ⟨0x7FC00000, 0, 0, 0, 0x3F800000, 0⟩ }
    let u := { textured with loc := ⟨0x7F7FFFFF, 0, 0, 0, 0x7F7FFFFF, 0⟩ }
    s.err = 0 ∧ s.shader.toNat = 1 ∧ s.params.numerics = .binary32 ∧
    isNaN (matDet ieee (matMul ieee s.ctm s.loc)) = true ∧
    u.err = 0 ∧ u.shader.toNat = 1 ∧ u.params.numerics = .binary32 ∧
    isInf (matDet ieee (matMul ieee u.ctm u.loc)) = true := by
  decide +kernel

theorem test_witness_ColourRowRepeatsTheColour : canvas.shader.toNat = 0 ∧ 2 < 3 := by
  decide +kernel

theorem test_witness_TexelIndexIsTheClampedFloor :
    (1 ≤ 1 ∧ 0 < 1) ∧ (1 ≤ 65535 ∧ 65534 < 65535) ∧ isNaN 0x7FC00000 = true ∧
    isFinite 0xBE800000 = true := by decide +kernel

theorem test_witness_BitmapRowStepsItsCoordinates :
    textured.shader.toNat = 1 ∧ 3 < 4 ∧ numericsOf textured.params.numerics = ieee :=
  ⟨by decide +kernel, by decide, rfl⟩

/-- The last pixel of the longest row of the largest texture. -/
theorem test_witness_IdentityMappingSamplesMatchingTexels :
    let s := { textured with
      xf := ⟨0x3F800000, 0x80000000, 0, 0x80000000, 0x3F800000, 0⟩, texW := 65535, texH := 1 }
    s.shader.toNat = 1 ∧ s.params.numerics = .binary32 ∧ s.xf.a = 0x3F800000 ∧ (s.xf.b = 0x00000000 ∨ s.xf.b = 0x80000000) ∧
    s.xf.c = 0x00000000 ∧ (s.xf.d = 0x00000000 ∨ s.xf.d = 0x80000000) ∧ s.xf.e = 0x3F800000 ∧
    s.xf.f = 0x00000000 ∧ 1 ≤ s.texW.toNat ∧ 1 ≤ s.texH.toNat ∧ s.texW.toNat ≤ 65535 ∧
    s.texH.toNat ≤ 65535 ∧ 65534 + 1 ≤ 65535 ∧ 65534 < 65535 ∧ 0 < 1 := by decide +kernel

/-- Every channel of V-B1 fits, its alpha at exactly 255. -/
theorem test_witness_BlendIsRoundedDivision :
    chA 0x7F007F00 + ((255 - chA 0x7F007F00) * chA 0xFFFF0000 + 127) / 255 = 255 ∧
    chR 0x7F007F00 + ((255 - chA 0x7F007F00) * chR 0xFFFF0000 + 127) / 255 ≤ 255 ∧
    chG 0x7F007F00 + ((255 - chA 0x7F007F00) * chG 0xFFFF0000 + 127) / 255 ≤ 255 ∧
    chB 0x7F007F00 + ((255 - chA 0x7F007F00) * chB 0xFFFF0000 + 127) / 255 ≤ 255 := by
  decide +kernel

theorem test_witness_OpaqueReplacesAndTransparentKeeps : chA 0xFF102030 = 255 := by decide +kernel

theorem test_witness_BlendOfValidPixelsIsValid :
    validPixel 0x80804000 = true ∧ validPixel 0xFFFFFFFF = true := by decide +kernel

/-! ### Witnesses: rasterizer -/

/-- The corners of the ranges. -/
theorem test_witness_EdgeValuesFitSixtySixBits :
    (-2 ^ 31 : Int) ≤ -2 ^ 31 ∧ (-2 ^ 31 : Int) ≤ 2 ^ 31 - 1 ∧ (2 ^ 31 - 1 : Int) ≤ 2 ^ 31 - 1 ∧
    (0 : Int) ≤ 65535 ∧ (65535 : Int) ≤ 65535 := by decide

/-- A horizontal edge, and the two triangles of R188 on a square: edge 23 of `(TL, TR, BL)`, its corners 1
and 2, is edge 31 of `(TR, BR, BL)`, its corners 2 and 0. -/
theorem test_witness_SharedEdgeIsOwnedOnce :
    ((0 : Int) ≠ 64 ∨ (0 : Int) ≠ 0) ∧
    corner ⟨0, 0, 64, 0, 0, 64⟩ 1 = corner ⟨64, 0, 64, 64, 0, 64⟩ (2 + 1) ∧
    corner ⟨0, 0, 64, 0, 0, 64⟩ (1 + 1) = corner ⟨64, 0, 64, 64, 0, 64⟩ 2 := by decide

theorem test_witness_DrawConfigurationErrors :
    canvas.err = 0 ∧ 1 < (2 : Word).toNat ∧ canvas.shader.toNat ≤ 1 ∧ 65535 < (65536 : Word).toNat ∧
    canvas.params.dmPixels < (65535 : Word).toNat * (65 : Word).toNat ∧
    canvas.fbW.toNat * canvas.fbH.toNat ≤ canvas.params.dmPixels ∧ textured.shader.toNat = 1 ∧
    textured.texW.toNat ≠ 0 ∧ textured.texH.toNat ≠ 0 ∧
    textured.params.tmPixels < (2048 : Word).toNat * (2049 : Word).toNat := by decide +kernel

/-- `canvas` passes the configuration check. -/
theorem canvas_configured : configured canvas := by
  unfold configured
  decide +kernel

/-- `textured` passes the configuration check. -/
theorem textured_configured : configured textured := by
  unfold configured
  decide +kernel

/-- P6: a local matrix of zeros. -/
theorem test_witness_SingularTransformSkipsTheDraw :
    textured.err = 0 ∧ configured { textured with loc := Affine.zero } ∧
    ¬ usable { textured with loc := Affine.zero } := by
  refine ⟨by decide +kernel, textured_configured, ?_⟩
  unfold usable
  decide +kernel

/-- P7: `V1X` a NaN, position 0. -/
theorem test_witness_FirstBadVertexRaisesEVtx :
    canvas.err = 0 ∧ configured canvas ∧ usable canvas ∧
    [(0x7FC00000 : Word), 0, 0x40800000, 0, 0, 0x40800000][0]? = some 0x7FC00000 ∧
    fix canvas.params.vtxRound 0x7FC00000 = none := by
  refine ⟨by decide +kernel, canvas_configured, ?_, by decide +kernel, by decide +kernel⟩
  unfold usable
  decide +kernel

/-- `V3Y` at 2^27, position 5, the other five good. -/
theorem test_witness_FirstBadVertexRaisesEVtx_last :
    [(0 : Word), 0, 0x40800000, 0, 0, 0x4D000000][5]? = some 0x4D000000 ∧
    fix canvas.params.vtxRound 0x4D000000 = none ∧
    [(0 : Word), 0, 0x40800000, 0, 0].all (fun q => (fix canvas.params.vtxRound q).isSome) = true := by
  decide +kernel

/-- V-R8 and the canvas of width 0 (V-R13). -/
theorem test_witness_EmptyBoundsDrawNothing :
    canvas.err = 0 ∧ configured canvas ∧ usable canvas ∧
    fixVertices .halfEven ⟨0xC1200000, 0xC1200000, 0xC0A00000, 0xC1200000, 0xC1200000, 0xC0A00000⟩ =
      .ok ⟨-160, -160, -80, -160, -160, -80⟩ ∧
    (boundsOn canvas ⟨-160, -160, -80, -160, -160, -80⟩).xmax ≤
      (boundsOn canvas ⟨-160, -160, -80, -160, -160, -80⟩).xmin ∧
    (boundsOn { canvas with fbW := 0 } canvasFixed).xmax ≤
      (boundsOn { canvas with fbW := 0 } canvasFixed).xmin := by
  refine ⟨by decide +kernel, canvas_configured, ?_, by decide +kernel, by decide +kernel, by decide +kernel⟩
  unfold usable
  decide +kernel

/-- A covered pixel on the canvas' left edge, its shaded pixel, and one that is not covered. -/
theorem test_witness_DrawNetEffect :
    canvas.err = 0 ∧ configured canvas ∧ usable canvas ∧
    fixVertices canvas.params.vtxRound canvas.vtx = .ok canvasFixed ∧
    (boundsOn canvas canvasFixed).xmin < (boundsOn canvas canvasFixed).xmax ∧
    (boundsOn canvas canvasFixed).ymin < (boundsOn canvas canvasFixed).ymax ∧
    drawnPixel canvas canvasFixed 0 3 ∧ ¬ drawnPixel canvas canvasFixed 1 3 ∧
    (shadeRow (setContext canvas) (boundsOn canvas canvasFixed).xmin.toNat 3
      ((boundsOn canvas canvasFixed).xmax - (boundsOn canvas canvasFixed).xmin).toNat)[0]? =
      some 0xFFFF0000 := by
  refine ⟨by decide +kernel, canvas_configured, ?_, by decide +kernel, by decide +kernel, by decide +kernel,
    ?_, ?_, by decide +kernel⟩
  · unfold usable
    decide +kernel
  · unfold drawnPixel insideEdges
    decide +kernel
  · unfold drawnPixel insideEdges
    decide +kernel

/-- A draw that ends in the fault state. -/
theorem test_witness_DrawLeavesRegistersAndTexture :
    after (fun t => t.err != 0) (exec .drawtri { canvas with shader := 7 }) = true := by
  decide +kernel

/-- A draw that changes a byte: red over black at pixel 0. -/
theorem test_witness_DrawStaysInsideTheCanvas :
    after (fun t => readByte t .dm 2 != readByte canvas .dm 2) (exec .drawtri canvas) = true := by
  decide +kernel

/-- The reversed triangle of `canvas` (negative area) and a triangle on one line (area 0). -/
theorem test_witness_NonPositiveAreaDrawsNothing :
    fixVertices canvas.params.vtxRound ⟨0, 0, 0, 0x40800000, 0x40800000, 0⟩ =
      .ok ⟨0, 0, 0, 64, 64, 0⟩ ∧
    signedArea ⟨0, 0, 0, 64, 64, 0⟩ < 0 ∧ signedArea ⟨16, 16, 80, 80, 48, 48⟩ = 0 :=
  ⟨by decide +kernel, by decide +kernel, by decide +kernel⟩

theorem test_witness_TransparentColourChangesNoPixel :
    State.reset.shader.toNat = 0 ∧ State.reset.color = 0x00000000 := by decide

/-- A machine of one pixel in each memory, both written with valid pixels. -/
theorem test_witness_DrawKeepsImagesValid :
    validImages { textured with params := { Config.params with dmPixels := 1, tmPixels := 1 } } := by
  refine ⟨by decide +kernel, fun i hi => ?_, fun i hi => ?_⟩
  · have : i = 0 := by
      change i < 1 at hi
      omega
    subst this
    decide +kernel
  · have : i = 0 := by
      change i < 1 at hi
      omega
    subst this
    decide +kernel

/-- A machine in the fault state with a word in each memory. -/
def written : State :=
  { faulted [.read 8 32] with
    dm := writeWord [] 4194303 0xFF000000
    tm := writeWord [] 0 0x80404040 }

theorem test_witness_EveryStepKeepsTheInvariant :
    Inv written ∧ step written = .next (afterEvent written [] (.data 3)) := by
  refine ⟨⟨.inr (.inl ⟨rfl, fun i h => ?_⟩),
    writeWord_shaped _ _ _ _ (by decide +kernel) (nil_shaped _),
    writeWord_shaped _ _ _ _ (by decide +kernel) (nil_shaped _)⟩, ?_⟩
  · change decode (3 : Word) = .ok i at h
    rw [show decode (3 : Word) = .error (.unknownOp 3) by decide] at h
    cases h
  · rw [step_read written [] 8 32 rfl, show busReadValue 8 32 written = .data 3 by decide +kernel]
    rfl

end Sys2Proof.Tests
end

section
/-! What a word written to `CMD` runs (R12, R35, R81), and that no step changes the parameters (R6, R13). -/

namespace Sys2Proof.Machine

/-! ### Words and addresses -/

/-- The two fields of format C make up the whole word (R80). -/
theorem rsvField_append_opField (c : Word) : rsvField c ++ opField c = c :=
  BitVec.extractLsb'_append_extractLsb'_eq_extractLsb' (by decide) |>.trans
    BitVec.extractLsb'_eq_self

/-- A word decodes to a command exactly when it is the command's word (R81, R82). -/
theorem decode_eq_ok_iff (c : Word) (i : Instr) : decode c = .ok i ↔ c = encode i := by
  constructor
  · intro h
    have hc := rsvField_append_opField c
    unfold decode at h
    split at h
    · cases h
    next hrsv =>
      rw [not_not.mp hrsv] at hc
      repeat' split at h
      all_goals cases h
      all_goals
        next hop =>
          rw [hop] at hc
          exact hc.symm
  · rintro rfl
    cases i <;> decide

/-- The bus address of a register offset is located at that offset (R56, R71). -/
theorem locate_busAddress_reg (p : Params) (off : Nat) (hp : p.wf = true)
    (hoff : Target.wf p (.reg off) = true) :
    locate p (busAddress p (.reg off)) 32 = some (.reg off) := by
  have hbase : p.regBase % 4 = 0 := by
    simp only [Params.wf, Bool.and_eq_true, beq_iff_eq] at hp
    omega
  obtain ⟨hlt, halign⟩ : off < 256 ∧ off % 4 = 0 := by simpa [Target.wf] using hoff
  have hacc : ¬ (32 ≠ 32 ∨ (p.regBase + off) % 4 ≠ 0) := by omega
  have hin : p.regBase ≤ p.regBase + off ∧ p.regBase + off < p.regBase + 256 := by omega
  simp only [locate, busAddress, if_neg hacc, if_pos hin, Nat.add_sub_cancel_left]

/-! ### Commands -/

/-- In the fault state every command but `RESET` changes nothing (R205). -/
theorem exec_of_inFault (i : Instr) (s : State) (hf : inFault s = true) (hi : i ≠ .reset) :
    exec i s = .next s := by
  cases i with
  | nop => rfl
  | setctx => exact if_pos hf
  | drawtri => exact if_pos hf
  | reset => exact absurd rfl hi

/-- A word that decodes runs its command, in the fault state too: there both do nothing, or the command is
`RESET` (R81, R205). -/
theorem command_of_decode {c : Word} {i : Instr} (s : State) (hd : decode c = .ok i) :
    command c s = exec i s := by
  rcases command_cases c s with ⟨hf, hc, h⟩ | ⟨j, hj, h⟩ | ⟨_, hno, _⟩
  · have hi : i ≠ .reset := by
      rintro rfl
      exact hc ((decode_eq_ok_iff c .reset).mp hd)
    rw [h, exec_of_inFault i s hf hi]
  · cases hd.symm.trans hj
    exact h
  · exact absurd hd (hno i)

/-- A step that takes a write to a register offset: the write's meaning, on the state with the event taken
and its completion recorded (R174). -/
theorem step_write_reg (s : State) (rest : List HostEvent) (off : Nat) (w : Word)
    (hp : s.params.wf = true) (hoff : Target.wf s.params (.reg off) = true)
    (h : s.pending = .write (busAddress s.params (.reg off)) 32 w :: rest) :
    step s = regWr off w (afterEvent s rest .done) := by
  have hl := locate_busAddress_reg s.params off hp hoff
  rcases step_write s rest _ _ w h with ⟨off', hl', hs⟩ | ⟨_, _, hl', _⟩ | ⟨hl', _⟩
  · cases hl.symm.trans hl'
    exact hs
  · cases hl.symm.trans hl'
  · cases hl.symm.trans hl'

/-- Offset 0 of the register aperture is `CMD` (R35, R73). -/
theorem regWr_zero (w : Word) (s : State) : regWr 0 w s = command w s := rfl

/-- A step whose event writes a word to `CMD` (R12, R81). -/
theorem step_write_cmd (s : State) (rest : List HostEvent) (c : Word) (hp : s.params.wf = true)
    (h : s.pending = .write (busAddress s.params (.reg 0)) 32 c :: rest) :
    step s = command c (afterEvent s rest .done) := by
  rw [step_write_reg s rest 0 c hp rfl h, regWr_zero]

/-- `withFetchWord` with a command's word puts the bus write that issues the command in front of the
events to come (R35, R91). -/
theorem withFetchWord_encode (s : State) (i : Instr) :
    s.withFetchWord 32 (encode i).toNat = { s with pending := commandWrite s.params i :: s.pending } := by
  have hword : BitVec.ofNat 32 ((encode i).toNat % 2 ^ 32) = encode i := by
    rw [Nat.mod_eq_of_lt (encode i).isLt, BitVec.ofNat_toNat, BitVec.setWidth_eq]
  rw [State.withFetchWord, hword]
  rfl

/-! ### The parameters -/

@[simp] theorem setContext_params (s : State) : (setContext s).params = s.params := by
  rw [setContext_frame]

@[simp] theorem drawTriangle_params (t : Fixed) (s : State) : (drawTriangle t s).params = s.params := by
  rw [drawTriangle_frame]

@[simp] theorem memWrite_params (s : State) (sp : Space) (i : Nat) (w : Word) :
    (memWrite s sp i w).params = s.params := by
  cases sp <;> rfl

@[simp] theorem drawAfterContext_params (s : State) : (drawAfterContext s).params = s.params := by
  rcases drawAfterContext_cases s with ⟨_, h⟩ | ⟨_, k, _, h⟩ | ⟨_, t, _, h⟩
  · rw [h]
  · rw [h, raise_params]
  · rw [h, drawTriangle_params]

/-- The outcome is a next state, and its parameters are `p`. -/
def completesWithParams (p : Params) (r : Host.Outcome State Fault Refusal) : Prop :=
  ∃ t, r = .next t ∧ t.params = p

@[simp] theorem completesWithParams_next (p : Params) (t : State) :
    completesWithParams p (.next t) ↔ t.params = p := by
  simp [completesWithParams]

/-- Every command completes and keeps the parameters. -/
theorem exec_completesWithParams (i : Instr) (s : State) : completesWithParams s.params (exec i s) := by
  cases i with
  | nop => exact ⟨s, rfl, rfl⟩
  | setctx =>
    show completesWithParams s.params (execSetctx s)
    rcases execSetctx_cases s with ⟨_, h⟩ | ⟨_, _, h⟩ | ⟨_, _, h⟩ <;> simp [h]
  | drawtri =>
    show completesWithParams s.params (execDrawtri s)
    rcases execDrawtri_cases s with ⟨_, h⟩ | ⟨_, n, _, h⟩ | ⟨_, _, h⟩ <;> simp [h]
  | reset => exact ⟨resetRegisters s, rfl, rfl⟩

/-- Every word written to `CMD` completes and keeps the parameters. -/
theorem command_completesWithParams (c : Word) (s : State) : completesWithParams s.params (command c s) := by
  rcases command_cases c s with ⟨_, _, h⟩ | ⟨i, _, h⟩ | ⟨_, _, h⟩
  · simp [h]
  · rw [h]
    exact exec_completesWithParams i s
  · simp [h]

/-- Every write to the register aperture completes and keeps the parameters. -/
theorem regWr_completesWithParams (off : Nat) (w : Word) (s : State) :
    completesWithParams s.params (regWr off w s) := by
  rcases regWr_cases off w s with ⟨_, h⟩ | ⟨r, _, _, h⟩ | ⟨_, h⟩
  · rw [h]
    exact command_completesWithParams w s
  · simp [h]
  · simp [h]

/-- Every step completes and keeps the parameters, by the event it takes (R12, R180). -/
theorem step_completesWithParams (s : State) : completesWithParams s.params (step s) := by
  cases hev : s.pending with
  | nil => simp [step_idle s hev]
  | cons ev rest =>
    cases ev with
    | powerOn => simp [step_powerOn s rest hev]
    | read addr width => simp [step_read s rest addr width hev]
    | write addr width w =>
      rcases step_write s rest addr width w hev with ⟨off, _, h⟩ | ⟨sp, i, _, h⟩ | ⟨_, h⟩
      · rw [h]
        exact regWr_completesWithParams off w (respond .done { s with pending := rest })
      · simp [h]
      · simp [h]

/-! ### The obligations -/

/-- Settles O60: the step laws give the next state for every event, and each of its updates keeps the
parameters. -/
theorem stepsKeepTheParameters : Obligations.StepsKeepTheParameters := step_completesWithParams

/-- Settles O5: the write is located at `CMD`, and the word runs the command it decodes to. -/
theorem stepRunsTheDecodedCommand : Obligations.StepRunsTheDecodedCommand := by
  intro s rest c i hp hpend hd
  rw [step_write_cmd s rest c hp hpend, command_of_decode _ hd]

/-- Settles O6, from O5: the placed word is a command write in front of the stream, and taking it leaves
the stream as it was. -/
theorem fetchWordRunsItsCommand : Obligations.FetchWordRunsItsCommand := by
  intro s i hp
  rw [withFetchWord_encode]
  exact stepRunsTheDecodedCommand { s with pending := commandWrite s.params i :: s.pending }
    s.pending (encode i) i hp rfl ((decode_eq_ok_iff _ i).mpr rfl)

end Sys2Proof.Machine
end

section
/-! What one step can do to the state (R12), and what every step keeps: registers, memories, the invariant. -/

namespace Sys2Proof.Machine

/-! ### Register offsets and reset values -/

/-- A register is found at its own offset (R73). -/
theorem ofOffset_offset (r : Reg) : Reg.ofOffset r.offset = some r := by
  have h : ∀ q ∈ Reg.all, Reg.ofOffset q.offset = some q := by decide
  exact h r (mem_all r)

/-- Every register's offset is an aligned one of the register aperture (R73). -/
theorem offset_wf (p : Params) (r : Reg) : Target.wf p (.reg r.offset) = true := by
  have h : ∀ q ∈ Reg.all, q.offset < 256 ∧ q.offset % 4 = 0 := by decide
  simpa [Target.wf] using h r (mem_all r)

/-- A write at the offset of a register other than `CMD` is that register's write (R174). -/
theorem regWr_offset (r : Reg) (w : Word) (s : State) (hr : r ≠ .cmd) :
    regWr r.offset w s = .next (writeReg s r w) := by
  rcases regWr_cases r.offset w s with ⟨h, _⟩ | ⟨q, h, _, hs⟩ | ⟨h, _⟩
  · exact absurd (Option.some.inj ((ofOffset_offset r).symm.trans h)) hr
  · cases (ofOffset_offset r).symm.trans h
    exact hs
  · cases (ofOffset_offset r).symm.trans h

/-- Only offset 0 is `CMD` (R73). -/
theorem eq_zero_of_ofOffset_cmd {off : Nat} (h : Reg.ofOffset off = some .cmd) : off = 0 :=
  (offset_of_ofOffset h).symm

/-- The identity matrix holds 1.0 in entries 0 and 4 (R21, R26). -/
theorem affineEntry_identity (k : Fin 6) :
    affineEntry Affine.identity k = if k = 0 ∨ k = 4 then 0x3F800000 else 0x00000000 := by
  fin_cases k <;> rfl

@[simp] theorem affineEntry_zero (k : Fin 6) : affineEntry Affine.zero k = 0x00000000 := by
  fin_cases k <;> rfl

@[simp] theorem vertexEntry_zero (k : Fin 6) : vertexEntry Vertices.zero k = 0x00000000 := by
  fin_cases k <;> rfl

/-- What every register reads as after the registers are reset (R21, R44). -/
theorem readReg_resetRegisters (s : State) (r : Reg) :
    readReg (resetRegisters s) r =
      if r = .ctm 0 ∨ r = .ctm 4 ∨ r = .loc 0 ∨ r = .loc 4 then 0x3F800000 else 0x00000000 := by
  cases r with
  | v k => exact vertexEntry_zero k
  | ctm k => simp [readReg, affineEntry_identity]
  | loc k => simp [readReg, affineEntry_identity]
  | xf k => exact affineEntry_zero k
  | status => simp [readReg, statusWord]
  | _ => rfl

/-- The reset state's registers are as a register reset leaves them (R44, R171). -/
theorem resetRegisters_reset : resetRegisters State.reset = State.reset := rfl

/-! ### What the bus side keeps -/

@[simp] theorem readReg_afterEvent (s : State) (rest : List HostEvent) (a : Response) (r : Reg) :
    readReg (afterEvent s rest a) r = readReg s r := by
  cases r <;> rfl

/-- A register write leaves every byte of both memories alone. -/
theorem readByte_writeReg (s : State) (r : Reg) (w : Word) (sp : Space) (a : Nat) :
    readByte (writeReg s r w) sp a = readByte s sp a :=
  readByte_congr (writeReg_powerOns s r w) (by cases sp <;> simp [memOf])

/-- Only accesses of 32 bits are accepted (R56). -/
theorem width_of_locate {p : Params} {addr width : Nat} {t : Target}
    (h : locate p addr width = some t) : width = 32 := by
  by_contra hw
  simp [locate, hw] at h

/-! ### What `SET_CONTEXT` and a triangle keep -/

section SetContext
variable (s : State)

@[simp] theorem setContext_err : (setContext s).err = s.err := by rw [setContext_frame]
@[simp] theorem setContext_errinfo : (setContext s).errinfo = s.errinfo := by rw [setContext_frame]
@[simp] theorem setContext_fbW : (setContext s).fbW = s.fbW := by rw [setContext_frame]
@[simp] theorem setContext_fbH : (setContext s).fbH = s.fbH := by rw [setContext_frame]
@[simp] theorem setContext_dm : (setContext s).dm = s.dm := by rw [setContext_frame]
@[simp] theorem setContext_tm : (setContext s).tm = s.tm := by rw [setContext_frame]
@[simp] theorem setContext_powerOns : (setContext s).powerOns = s.powerOns := by rw [setContext_frame]
@[simp] theorem setContext_pending : (setContext s).pending = s.pending := by rw [setContext_frame]
@[simp] theorem setContext_responses : (setContext s).responses = s.responses := by
  rw [setContext_frame]

/-- `SET_CONTEXT` writes no RW register: `STATUS` and `XF` are RO (R21, R117). -/
theorem readReg_setContext {r : Reg} (hr : r.access = .rw) :
    readReg (setContext s) r = readReg s r := by
  rw [setContext_frame]
  cases r <;> first | rfl | cases hr

end SetContext

section DrawTriangle
variable (t : Fixed) (s : State)

@[simp] theorem drawTriangle_err : (drawTriangle t s).err = s.err := by rw [drawTriangle_frame]
@[simp] theorem drawTriangle_errinfo : (drawTriangle t s).errinfo = s.errinfo := by
  rw [drawTriangle_frame]
@[simp] theorem drawTriangle_tm : (drawTriangle t s).tm = s.tm := by rw [drawTriangle_frame]
@[simp] theorem drawTriangle_powerOns : (drawTriangle t s).powerOns = s.powerOns := by
  rw [drawTriangle_frame]
@[simp] theorem drawTriangle_pending : (drawTriangle t s).pending = s.pending := by
  rw [drawTriangle_frame]
@[simp] theorem drawTriangle_responses : (drawTriangle t s).responses = s.responses := by
  rw [drawTriangle_frame]

/-- A triangle writes no register (R145 to R158). -/
@[simp] theorem readReg_drawTriangle (r : Reg) : readReg (drawTriangle t s) r = readReg s r := by
  rw [drawTriangle_frame]
  cases r <;> rfl

end DrawTriangle

/-- An error writes no RW register: `STATUS` and `ERRINFO` are RO (R21, R204). -/
theorem readReg_raise (code : ErrCode) (info : Word) (s : State) {r : Reg} (hr : r.access = .rw) :
    readReg (raise code info s) r = readReg s r := by
  cases r <;> first | rfl | cases hr

/-! ### Triangles keep DM's shape -/

/-- The segment of a row on a canvas of `w` by `h` pixels ends inside the canvas (R51, R58). -/
theorem rowSegment_le {w h xmin count y : Nat} (hx : xmin + count ≤ w) (hy : y < h) :
    pixelIndex w xmin y + count ≤ w * h :=
  calc pixelIndex w xmin y + count = xmin + count + y * w := by unfold pixelIndex; omega
    _ ≤ w + y * w := by omega
    _ = w * (y + 1) := by ring
    _ ≤ w * h := Nat.mul_le_mul_left w hy

/-- A row keeps DM's shape when its segment lies inside the memory. -/
theorem drawRow_shaped (serial : Nat) (es : Edges) (xmin count y : Nat) (cy : Acc) (s : State) (n : Nat)
    (hn : pixelIndex s.fbW.toNat xmin y + count ≤ n) (h : memoryShaped n s.dm) :
    memoryShaped n (drawRow serial es xmin count y cy s).dm := by
  refine drawPixels_shaped _ _ _ _ s n ?_ h
  rw [length_blendRow] <;> simp [hn]

/-- Rows that lie on a canvas of height `h` keep DM's shape when the canvas fits the memory. -/
theorem drawRows_shaped (serial : Nat) (es : Edges) (xmin count n y : Nat) (cy : Acc) (s : State)
    (h pixels : Nat) (hx : xmin + count ≤ s.fbW.toNat) (hy : y + n ≤ h)
    (hfit : s.fbW.toNat * h ≤ pixels) (hs : memoryShaped pixels s.dm) :
    memoryShaped pixels (drawRows serial es xmin count n y cy s).dm := by
  induction n generalizing y cy s with
  | zero => exact hs
  | succ n ih =>
    have hw : (drawRow serial es xmin count y cy s).fbW = s.fbW := by rw [drawRow_frame]
    refine ih (y + 1) _ _ (by rwa [hw]) (by omega) (by rwa [hw]) ?_
    exact drawRow_shaped _ _ _ _ _ _ s _ ((rowSegment_le hx (by omega)).trans hfit) hs

/-- A triangle keeps DM's shape when the canvas fits DM (R58, R147). -/
theorem drawTriangle_shaped (t : Fixed) (s : State) (pixels : Nat)
    (hfit : s.fbW.toNat * s.fbH.toNat ≤ pixels) (hs : memoryShaped pixels s.dm) :
    memoryShaped pixels (drawTriangle t s).dm := by
  rcases drawTriangle_cases t s with ⟨_, h⟩ | ⟨hne, h⟩
  · rwa [h]
  · have hbounds := (emptyBounds_iff (boundsOn s t)).not.mp (by simp [hne])
    obtain ⟨hx0, hy0, hxw, hyh⟩ := boundsOn_range s t
    rw [h, drawFree_dm]
    exact drawRows_shaped _ _ _ _ _ _ _ s s.fbH.toNat pixels (by omega) (by omega) hfit hs

/-! ### The pairs of `ERR` and `ERRINFO` that errors record (R33, R34) -/

theorem errorRecorded_raise_cmd (s : State) {c : Word} (h : ∀ i, decode c ≠ .ok i) :
    errorRecorded (raise .cmd c s) :=
  .inr (.inl ⟨rfl, h⟩)

theorem errorRecorded_raise_cfg (s : State) {n : Nat} (h : 1 ≤ n ∧ n ≤ 6) :
    errorRecorded (raise .cfg (BitVec.ofNat 32 n) s) := by
  refine .inr (.inr (.inl ⟨rfl, ?_⟩))
  rw [raise_errinfo, BitVec.toNat_ofNat]
  omega

theorem errorRecorded_raise_vtx (s : State) {k : Nat} (h : k ≤ 5) :
    errorRecorded (raise .vtx (BitVec.ofNat 32 k) s) := by
  refine .inr (.inr (.inr ⟨rfl, ?_⟩))
  rw [raise_errinfo, BitVec.toNat_ofNat]
  omega

/-! ### What each command can do -/

/-- What a `DRAWTRI` can make of `s` (R140, R208). -/
inductive DrawEffect (s : State) : State → Prop
  | ignored (hf : inFault s = true) : DrawEffect s s
  | badConfig (n : Nat) (hn : 1 ≤ n ∧ n ≤ 6) : DrawEffect s (raise .cfg (BitVec.ofNat 32 n) s)
  | skipped : DrawEffect s (setContext s)
  | badVertex (k : Nat) (hk : k ≤ 5) :
      DrawEffect s (raise .vtx (BitVec.ofNat 32 k) (setContext s))
  | drawn (t : Fixed) (hf : inFault s = false)
      (hfit : s.fbW.toNat * s.fbH.toNat ≤ s.params.dmPixels) :
      DrawEffect s (drawTriangle t (setContext s))

/-- `DRAWTRI` tests the fault state, the configuration, the context and the vertices in turn (R208). -/
theorem execDrawtri_effect {s u : State} (h : execDrawtri s = .next u) : DrawEffect s u := by
  rcases execDrawtri_cases s with ⟨hf, hs⟩ | ⟨_, n, hn, hs⟩ | ⟨hf, hc, hs⟩ <;>
    cases h.symm.trans hs
  · exact .ignored hf
  · exact .badConfig n (configCheck_range s n hn)
  · obtain ⟨_, _, _, hfit, _⟩ := configCheck_none s hc
    rcases drawAfterContext_cases (setContext s) with ⟨_, h⟩ | ⟨_, k, hk, h⟩ | ⟨_, t, _, h⟩ <;> rw [h]
    · exact .skipped
    · exact .badVertex k (fixVertices_error_range _ _ k hk)
    · exact .drawn t hf hfit

/-- What a word written to `CMD` can make of `s` (R81, R213). -/
inductive CommandEffect (s : State) : State → Prop
  | unchanged : CommandEffect s s
  | raised (code : ErrCode) (info : Word) (h : errorRecorded (raise code info s)) :
      CommandEffect s (raise code info s)
  | contextSet : CommandEffect s (setContext s)
  | draw {u : State} (h : DrawEffect s u) : CommandEffect s u
  | reset : CommandEffect s (resetRegisters s)

/-- Everything `exec` can make of a state, for every command (R82). -/
theorem exec_effect {i : Instr} {s u : State} (h : exec i s = .next u) : CommandEffect s u := by
  cases i with
  | nop =>
    cases h
    exact .unchanged
  | setctx =>
    rcases execSetctx_cases s with ⟨_, hs⟩ | ⟨_, _, hs⟩ | ⟨_, _, hs⟩ <;> cases h.symm.trans hs
    · exact .unchanged
    · exact .raised .cfg 1 (errorRecorded_raise_cfg s (n := 1) (by decide))
    · exact .contextSet
  | drawtri => exact .draw (execDrawtri_effect h)
  | reset =>
    cases h
    exact .reset

/-- Everything a word written to `CMD` can make of a state, legal or not (R81). -/
theorem command_effect {c : Word} {s u : State} (h : command c s = .next u) : CommandEffect s u := by
  rcases command_cases c s with ⟨_, _, hs⟩ | ⟨i, _, hs⟩ | ⟨_, hno, hs⟩
  · cases h.symm.trans hs
    exact .unchanged
  · exact exec_effect (hs.symm.trans h)
  · cases h.symm.trans hs
    exact .raised .cmd c (errorRecorded_raise_cmd s hno)

/-- In the fault state a word written to `CMD` changes nothing, or it is `RESET`'s (R205). -/
theorem command_of_inFault {c : Word} {s u : State} (hf : inFault s = true)
    (h : command c s = .next u) : u = s ∨ c = 0x0000000F := by
  rcases command_cases c s with ⟨_, _, hs⟩ | ⟨i, hd, hs⟩ | ⟨hnf, _, _⟩
  · cases h.symm.trans hs
    exact .inl rfl
  · by_cases hi : i = .reset
    · subst hi
      exact .inr ((decode_eq_ok_iff c .reset).mp hd)
    · cases h.symm.trans (hs.trans (exec_of_inFault i s hf hi))
      exact .inl rfl
  · cases hf.symm.trans hnf

/-! ### What a step can do -/

/-- What a step can make of `s`, by the event it takes and what the event's address names (R12). -/
inductive StepEffect (s : State) : State → Prop
  | idle : StepEffect s s
  | powerOn (rest : List HostEvent) (h : s.pending = .powerOn :: rest) :
      StepEffect s (powerOnReset { s with pending := rest })
  | answered (rest : List HostEvent) (r : Response) : StepEffect s (afterEvent s rest r)
  | register (rest : List HostEvent) (r : Reg) (w : Word) :
      StepEffect s (writeReg (afterEvent s rest .done) r w)
  | pixel (addr : Nat) (rest : List HostEvent) (sp : Space) (i : Nat) (w : Word)
      (h : s.pending = .write addr 32 w :: rest)
      (hl : locate s.params addr 32 = some (.mem sp i)) :
      StepEffect s (memWrite (afterEvent s rest .done) sp i w)
  | command (addr : Nat) (rest : List HostEvent) (c : Word) (u : State)
      (h : s.pending = .write addr 32 c :: rest) (hl : locate s.params addr 32 = some (.reg 0))
      (hc : command c (afterEvent s rest .done) = .next u) : StepEffect s u

/-- A step that takes an accepted write to the register aperture. -/
theorem step_effect_regWr {s u : State} {addr off : Nat} {rest : List HostEvent} {w : Word}
    (h : s.pending = .write addr 32 w :: rest) (hl : locate s.params addr 32 = some (.reg off))
    (hu : regWr off w (afterEvent s rest .done) = .next u) : StepEffect s u := by
  rcases regWr_cases off w (afterEvent s rest .done) with ⟨ho, hs⟩ | ⟨r, _, _, hs⟩ | ⟨_, hs⟩
  · cases eq_zero_of_ofOffset_cmd ho
    exact .command addr rest w u h hl (hs.symm.trans hu)
  · cases hu.symm.trans hs
    exact .register rest r w
  · cases hu.symm.trans hs
    exact .answered rest .done

/-- Everything a step can make of a state. -/
theorem step_effect {s u : State} (hu : step s = .next u) : StepEffect s u := by
  cases hev : s.pending with
  | nil =>
    cases hu.symm.trans (step_idle s hev)
    exact .idle
  | cons ev rest =>
    cases ev with
    | powerOn =>
      cases hu.symm.trans (step_powerOn s rest hev)
      exact .powerOn rest hev
    | read addr width =>
      cases hu.symm.trans (step_read s rest addr width hev)
      exact .answered rest (busReadValue addr width s)
    | write addr width w =>
      rcases step_write s rest addr width w hev with ⟨off, hl, hs⟩ | ⟨sp, i, hl, hs⟩ | ⟨_, hs⟩
      · cases width_of_locate hl
        exact step_effect_regWr hev hl (hs.symm.trans hu)
      · cases width_of_locate hl
        cases hu.symm.trans hs
        exact .pixel addr rest sp i w hev hl
      · cases hu.symm.trans hs
        exact .answered rest .busError

/-! ### The invariant -/

/-- The invariant speaks of the parameters, the recorded error and the memories alone. -/
theorem inv_congr {s u : State} (h : Inv s) (hparams : u.params = s.params) (herr : u.err = s.err)
    (hinfo : u.errinfo = s.errinfo) (hdm : u.dm = s.dm) (htm : u.tm = s.tm) : Inv u := by
  unfold Inv errorRecorded at *
  rwa [hparams, herr, hinfo, hdm, htm]

theorem inv_raise {code : ErrCode} {info : Word} {s : State} (h : Inv s)
    (he : errorRecorded (raise code info s)) : Inv (raise code info s) :=
  ⟨he, h.2⟩

theorem inv_afterEvent {s : State} (rest : List HostEvent) (r : Response) (h : Inv s) :
    Inv (afterEvent s rest r) := h

theorem inv_writeReg {s : State} (r : Reg) (w : Word) (h : Inv s) : Inv (writeReg s r w) :=
  inv_congr h (by simp) (by simp) (by simp) (by simp) (by simp)

theorem inv_setContext {s : State} (h : Inv s) : Inv (setContext s) :=
  inv_congr h (by simp) (by simp) (by simp) (by simp) (by simp)

/-- A pixel write inside its memory keeps the invariant (R57). -/
theorem inv_memWrite {s : State} {sp : Space} {i : Nat} (w : Word) (hi : i < pixelsOf s.params sp)
    (h : Inv s) : Inv (memWrite s sp i w) := by
  obtain ⟨herr, hdm, htm⟩ := h
  cases sp with
  | dm => exact ⟨herr, writeWord_shaped _ _ _ _ hi hdm, htm⟩
  | tm => exact ⟨herr, hdm, writeWord_shaped _ _ _ _ hi htm⟩

theorem inv_resetRegisters {s : State} (h : Inv s) : Inv (resetRegisters s) :=
  ⟨.inl ⟨rfl, rfl⟩, h.2⟩

/-- Power-on reset gives the invariant from any state: no error, and nothing written (R45, R220). -/
theorem inv_powerOnReset (s : State) : Inv (powerOnReset s) :=
  ⟨.inl ⟨rfl, rfl⟩, nil_shaped _, nil_shaped _⟩

/-- A triangle on a canvas that fits DM keeps the invariant (R58). -/
theorem inv_drawTriangle {s : State} (t : Fixed)
    (hfit : s.fbW.toNat * s.fbH.toNat ≤ s.params.dmPixels) (h : Inv s) : Inv (drawTriangle t s) := by
  obtain ⟨herr, hdm, htm⟩ := h
  refine ⟨?_, ?_, ?_⟩
  · simpa [errorRecorded] using herr
  · simpa using drawTriangle_shaped t s _ hfit hdm
  · simpa using htm

/-- The canvas of a draw that passed its check fits DM, so every draw keeps the invariant (R58). -/
theorem DrawEffect.inv {s u : State} (he : DrawEffect s u) (h : Inv s) : Inv u := by
  cases he with
  | ignored => exact h
  | badConfig n hn => exact inv_raise h (errorRecorded_raise_cfg s hn)
  | skipped => exact inv_setContext h
  | badVertex k hk => exact inv_raise (inv_setContext h) (errorRecorded_raise_vtx _ hk)
  | drawn t _ hfit => exact inv_drawTriangle t (by simpa using hfit) (inv_setContext h)

theorem CommandEffect.inv {s u : State} (he : CommandEffect s u) (h : Inv s) : Inv u := by
  cases he with
  | unchanged => exact h
  | raised code info hrec => exact inv_raise h hrec
  | contextSet => exact inv_setContext h
  | draw hd => exact hd.inv h
  | reset => exact inv_resetRegisters h

/-- An accepted address lies inside its memory, so every step keeps the invariant (R56, R58). -/
theorem StepEffect.inv {s u : State} (he : StepEffect s u) (h : Inv s) : Inv u := by
  cases he with
  | idle => exact h
  | powerOn rest _ => exact inv_powerOnReset _
  | answered rest r => exact inv_afterEvent rest r h
  | register rest r w => exact inv_writeReg r w (inv_afterEvent rest .done h)
  | pixel addr rest sp i w _ hl =>
    exact inv_memWrite w (locate_mem_lt _ _ _ sp i hl) (inv_afterEvent rest .done h)
  | command addr rest c u _ _ hc => exact (command_effect hc).inv (inv_afterEvent rest .done h)

/-- Settles O58: each thing a step can do keeps the invariant. -/
theorem everyStepKeepsTheInvariant : Obligations.EveryStepKeepsTheInvariant :=
  fun _ _ h hstep => (step_effect hstep).inv h

/-- Settles O59: no error is recorded, and nothing has been written. -/
theorem resetMeetsTheInvariant : Obligations.ResetMeetsTheInvariant :=
  ⟨.inl ⟨rfl, rfl⟩, nil_shaped _, nil_shaped _⟩

/-! ### What commands leave alone -/

/-- A draw writes no RW register (R25, R164). -/
theorem DrawEffect.readReg {s u : State} (he : DrawEffect s u) {r : Reg} (hr : r.access = .rw) :
    readReg u r = readReg s r := by
  cases he with
  | ignored => rfl
  | badConfig => exact readReg_raise _ _ _ hr
  | skipped => exact readReg_setContext s hr
  | badVertex => rw [readReg_raise _ _ _ hr, readReg_setContext s hr]
  | drawn t => rw [readReg_drawTriangle, readReg_setContext s hr]

/-- A draw that ends in the fault state leaves DM alone: one that draws starts and ends out of it (R206). -/
theorem DrawEffect.dm_of_err {s u : State} (he : DrawEffect s u) (hu : u.err ≠ 0) : u.dm = s.dm := by
  cases he with
  | ignored => rfl
  | badConfig => rfl
  | skipped => exact setContext_dm s
  | badVertex => exact setContext_dm s
  | drawn t hf => exact absurd (by simpa [inFault] using hf) hu

/-- A draw changes neither TM nor the model's own fields but the count of free values (R40). -/
theorem DrawEffect.frame {s u : State} (he : DrawEffect s u) :
    u.tm = s.tm ∧ u.params = s.params ∧ u.powerOns = s.powerOns ∧ u.pending = s.pending ∧
      u.responses = s.responses := by
  cases he <;> simp

/-- No command changes TM or what its unwritten bytes read as (R40). -/
theorem CommandEffect.readByte_tm {s u : State} (he : CommandEffect s u) (a : Nat) :
    readByte u .tm a = readByte s .tm a := by
  obtain ⟨htm, hpow⟩ : u.tm = s.tm ∧ u.powerOns = s.powerOns := by
    cases he with
    | draw hd =>
      obtain ⟨htm, _, hpow, _⟩ := hd.frame
      exact ⟨htm, hpow⟩
    | _ => simp
  exact readByte_congr hpow (congrArg (byteAt? · a) htm)

/-- A step that changes a byte of TM takes a power-on or a host write to the byte's word (R40, R45). -/
theorem StepEffect.tm_changed {s u : State} (he : StepEffect s u) {a : Nat}
    (hne : readByte u .tm a ≠ readByte s .tm a) :
    (∃ rest, s.pending = .powerOn :: rest) ∨
    ∃ addr w rest, s.pending = .write addr 32 w :: rest ∧
      locate s.params addr 32 = some (.mem .tm (a / 4)) := by
  cases he with
  | idle => exact absurd rfl hne
  | powerOn rest h => exact .inl ⟨rest, h⟩
  | answered rest r => exact absurd rfl hne
  | register rest r w => exact absurd (readByte_writeReg _ r w .tm a) hne
  | pixel addr rest sp i w h hl =>
    have hword : ¬ (.tm ≠ sp ∨ a / 4 ≠ i) := fun hother =>
      hne (readByte_memWrite_other (afterEvent s rest .done) sp .tm i a w hother)
    obtain ⟨rfl, rfl⟩ : .tm = sp ∧ a / 4 = i := by simpa [not_or] using hword
    exact .inr ⟨addr, w, rest, h, hl⟩
  | command addr rest c u _ _ hc => exact absurd ((command_effect hc).readByte_tm a) hne

/-- A step from the fault state keeps the recorded error, or takes a power-on or `RESET`'s word (R205,
R206). -/
theorem StepEffect.of_inFault {s u : State} (he : StepEffect s u) (hf : inFault s = true) :
    (u.err = s.err ∧ u.errinfo = s.errinfo) ∨ (∃ rest, s.pending = .powerOn :: rest) ∨
      ∃ addr rest, s.pending = .write addr 32 0x0000000F :: rest ∧
        locate s.params addr 32 = some (.reg 0) := by
  cases he with
  | idle => exact .inl ⟨rfl, rfl⟩
  | powerOn rest h => exact .inr (.inl ⟨rest, h⟩)
  | answered rest r => exact .inl ⟨rfl, rfl⟩
  | register rest r w => exact .inl ⟨by simp, by simp⟩
  | pixel addr rest sp i w => exact .inl (by cases sp <;> exact ⟨rfl, rfl⟩)
  | command addr rest c u h hl hc =>
    rcases command_of_inFault (s := afterEvent s rest .done) hf hc with rfl | rfl
    · exact .inl ⟨rfl, rfl⟩
    · exact .inr (.inr ⟨addr, rest, h, hl⟩)

/-! ### The obligations about registers and memories -/

/-- Settles O13: of what a step can do, only power-on and `RESET`'s word touch the recorded error. -/
theorem faultStateLeftOnlyByReset : Obligations.FaultStateLeftOnlyByReset := by
  intro s herr
  obtain ⟨u, hu, _⟩ := step_completesWithParams s
  exact ⟨u, hu, (step_effect hu).of_inFault (by simpa [inFault] using herr)⟩

/-- Settles O17: the step is the register's write, which reads back and touches no other register. -/
theorem registerWriteStoresTheWord : Obligations.RegisterWriteStoresTheWord := by
  intro s rest r w hp h hr
  have hcmd : r ≠ .cmd := by
    rintro rfl
    cases hr
  refine ⟨writeReg (afterEvent s rest .done) r w, ?_, readReg_writeReg_same _ r w hr, ?_, ?_⟩
  · rw [step_write_reg s rest r.offset w hp (offset_wf s.params r) h, regWr_offset r w _ hcmd]
  · intro q hq
    rw [readReg_writeReg_other _ r q w hq, readReg_afterEvent]
  · simp

/-- Settles O18: at such an offset there is no register, or one that ignores the write. -/
theorem otherRegisterWritesAreIgnored : Obligations.OtherRegisterWritesAreIgnored := by
  intro s rest off w hp h hlt halign hoff hro
  rw [step_write_reg s rest off w hp (by simp [Target.wf, hlt, halign]) h]
  rcases regWr_cases off w (afterEvent s rest .done) with ⟨ho, _⟩ | ⟨r, ho, _, hs⟩ | ⟨_, hs⟩
  · exact absurd (eq_zero_of_ofOffset_cmd ho) hoff
  · rw [hs, writeReg_ignored _ r w (hro r (offset_of_ofOffset ho))]
  · exact hs

/-- Settles O23: of what a step can do, only power-on and a pixel write to the byte's word change it. -/
theorem textureChangedOnlyByTheHost : Obligations.TextureChangedOnlyByTheHost := by
  intro s
  obtain ⟨u, hu, _⟩ := step_completesWithParams s
  exact ⟨u, hu, fun _ hne => (step_effect hu).tm_changed hne⟩

/-- Settles O53: `SET_CONTEXT`, an error and a triangle each keep them, and only a triangle writes DM. -/
theorem drawLeavesRegistersAndTexture : Obligations.DrawLeavesRegistersAndTexture := by
  intro s
  obtain ⟨u, hu, _⟩ := exec_completesWithParams .drawtri s
  have he : DrawEffect s u := execDrawtri_effect hu
  obtain ⟨htm, hframe⟩ := he.frame
  exact ⟨u, hu, htm, fun _ hr => he.readReg hr, he.dm_of_err, hframe⟩

/-- Settles O14: the reset state is a state whose registers have been reset. -/
theorem resetStateHoldsResetValues : Obligations.ResetStateHoldsResetValues := by
  refine ⟨fun r => ?_, rfl, rfl⟩
  rw [← resetRegisters_reset]
  exact readReg_resetRegisters State.reset r

/-- Settles O16: each field is one of the parts that the word is put together from, lowest last. -/
theorem statusWordLayout : Obligations.StatusWordLayout := by
  intro s w
  refine ⟨?_, ?_, ?_, ?_, rfl⟩ <;> simp only [readReg, statusWord]
  · exact BitVec.extractLsb'_append_eq_right
  · rw [BitVec.extractLsb'_append_eq_of_le (by decide)]
    exact BitVec.extractLsb'_append_eq_right
  · rw [BitVec.extractLsb'_append_eq_of_le (by decide), BitVec.extractLsb'_append_eq_of_le (by decide)]
    exact BitVec.extractLsb'_append_eq_right
  · rw [BitVec.extractLsb'_append_eq_of_le (by decide), BitVec.extractLsb'_append_eq_of_le (by decide)]
    exact BitVec.extractLsb'_append_eq_left

end Sys2Proof.Machine
end

section
/-! The host's pixel memories: where a bus address leads (R56, R71), what one pixel access does (R176, R177),
and which bytes of DM a draw can reach (R58). -/

namespace Sys2Proof.Machine

/-! ### Addresses -/

/-- The conditions on the parameters, as arithmetic (R6, R71). -/
theorem params_wf_iff (p : Params) :
    p.wf = true ↔ 1 ≤ p.dmPixels ∧ 1 ≤ p.tmPixels ∧
      p.regBase % 4 = 0 ∧ p.dmBase % 4 = 0 ∧ p.tmBase % 4 = 0 ∧
      (p.regBase + 256 ≤ p.dmBase ∨ p.dmBase + 4 * p.dmPixels ≤ p.regBase) ∧
      (p.regBase + 256 ≤ p.tmBase ∨ p.tmBase + 4 * p.tmPixels ≤ p.regBase) ∧
      (p.dmBase + 4 * p.dmPixels ≤ p.tmBase ∨ p.tmBase + 4 * p.tmPixels ≤ p.dmBase) := by
  simp [Params.wf, apart, and_assoc]

/-- A pixel target is well formed exactly when its index is below the memory's size (R176). -/
@[simp] theorem target_wf_mem (p : Params) (sp : Space) (i : Nat) :
    Target.wf p (.mem sp i) = true ↔ i < pixelsOf p sp := by
  cases sp <;> simp [Target.wf, pixelsOf]

/-- The bus address of a pixel is located at that pixel: its aperture holds it and no other does (R56,
R71). -/
theorem locate_busAddress_mem (p : Params) (sp : Space) (i : Nat) (hp : p.wf = true)
    (hi : i < pixelsOf p sp) : locate p (busAddress p (.mem sp i)) 32 = some (.mem sp i) := by
  obtain ⟨_, _, _, hdm, htm, hrd, hrt, hdt⟩ := (params_wf_iff p).mp hp
  generalize haddr : busAddress p (.mem sp i) = addr
  cases sp <;> simp only [busAddress, pixelsOf] at haddr hi <;> unfold locate
  case dm =>
    have hindex : (addr - p.dmBase) / 4 = i := by omega
    rw [if_neg (by omega), if_neg (by omega), if_pos (by omega), hindex]
  case tm =>
    have hindex : (addr - p.tmBase) / 4 = i := by omega
    rw [if_neg (by omega), if_neg (by omega), if_neg (by omega), if_pos (by omega), hindex]

/-- Encoding, then decoding: every target of the DRC is found at its address (R71). -/
theorem locate_busAddress {p : Params} {t : Target} (hp : p.wf = true) (ht : t.wf p = true) :
    locate p (busAddress p t) 32 = some t := by
  cases t with
  | reg off => exact locate_busAddress_reg p off hp ht
  | mem sp i => exact locate_busAddress_mem p sp i hp ((target_wf_mem p sp i).mp ht)

/-- Decoding, then encoding: an accepted access is 32 bits wide and aligned, and what it names is a target
of the DRC with that address (R56, R71). -/
theorem busAddress_of_locate {p : Params} {addr width : Nat} {t : Target} (hp : p.wf = true)
    (h : locate p addr width = some t) :
    width = 32 ∧ addr % 4 = 0 ∧ t.wf p = true ∧ busAddress p t = addr := by
  obtain ⟨_, _, hreg, hdm, htm, _⟩ := (params_wf_iff p).mp hp
  unfold locate at h
  split at h
  · cases h
  next hacc =>
    obtain ⟨hwidth, halign⟩ : width = 32 ∧ addr % 4 = 0 := by omega
    refine ⟨hwidth, halign, ?_⟩
    split at h
    · cases h
      simp only [Target.wf, busAddress, Bool.and_eq_true, decide_eq_true_eq, beq_iff_eq]
      omega
    · split at h
      · cases h
        simp only [target_wf_mem, pixelsOf, busAddress]
        omega
      · split at h <;> cases h
        simp only [target_wf_mem, pixelsOf, busAddress]
        omega

/-! ### One pixel access -/

/-- A pixel write writes no register (R176). -/
@[simp] theorem readReg_memWrite (s : State) (sp : Space) (i : Nat) (w : Word) (r : Reg) :
    readReg (memWrite s sp i w) r = readReg s r := by
  cases sp <;> cases r <;> rfl

/-- A step that takes a write to a pixel's address (R176). -/
theorem step_write_mem (s : State) (rest : List HostEvent) (sp : Space) (i : Nat) (w : Word)
    (hp : s.params.wf = true) (hi : i < pixelsOf s.params sp)
    (h : s.pending = .write (busAddress s.params (.mem sp i)) 32 w :: rest) :
    step s = .next (memWrite (afterEvent s rest .done) sp i w) := by
  have hl := locate_busAddress_mem s.params sp i hp hi
  rcases step_write s rest _ _ w h with ⟨_, hl', _⟩ | ⟨_, _, hl', hs⟩ | ⟨hl', _⟩ <;>
    cases hl.symm.trans hl'
  exact hs

/-! ### What a draw can reach -/

/-- A pixel of a canvas of `w` by `h` pixels has its index on the canvas (R51). -/
theorem pixelIndex_lt {w h x y : Nat} (hx : x < w) (hy : y < h) : pixelIndex w x y < w * h :=
  rowSegment_le (count := 1) hx hy

/-- A triangle leaves every byte beyond the canvas alone: its bounds are clipped to it (R147). -/
theorem byteAt?_drawTriangle_beyond (t : Fixed) (s : State) (o : Nat)
    (ho : s.fbW.toNat * s.fbH.toNat ≤ o / 4) :
    byteAt? (drawTriangle t s).dm o = byteAt? s.dm o := by
  rcases drawTriangle_cases t s with ⟨_, h⟩ | ⟨_, h⟩
  · rw [h]
  · obtain ⟨hx0, hy0, hxw, hyh⟩ := boundsOn_range s t
    rw [h, drawFree_dm]
    refine drawRows_other _ _ _ _ _ _ _ s o fun x y _ hx _ hy => ?_
    have hlt := pixelIndex_lt (w := s.fbW.toNat) (h := s.fbH.toNat) (x := x) (y := y)
      (by omega) (by omega)
    omega

/-- A draw that changes a byte of DM has a canvas that fits DM, and the byte lies on it (R39, R58). -/
theorem DrawEffect.dm_changed {s u : State} (he : DrawEffect s u) {a : Nat}
    (hne : readByte u .dm a ≠ readByte s .dm a) :
    a / 4 < s.fbW.toNat * s.fbH.toNat ∧ s.fbW.toNat * s.fbH.toNat ≤ s.params.dmPixels := by
  obtain ⟨_, _, hpow, _⟩ := he.frame
  have hdm : byteAt? u.dm a ≠ byteAt? s.dm a := fun heq => hne (readByte_congr hpow heq)
  cases he with
  | ignored => exact absurd rfl hdm
  | badConfig => exact absurd rfl hdm
  | skipped => simp at hdm
  | badVertex => simp at hdm
  | drawn t _ hfit =>
    refine ⟨?_, hfit⟩
    by_contra hbeyond
    have hsame := byteAt?_drawTriangle_beyond t (setContext s) a (by simpa using hbeyond)
    exact hdm (by simpa using hsame)

/-! ### The obligations about the pixel memories -/

/-- Settles O4: addresses by the two directions above, and a command's address is that of offset 0. -/
theorem busDecodeAndEncodeAgree : Obligations.BusDecodeAndEncodeAgree := by
  intro p hp
  refine ⟨fun t ht => locate_busAddress hp ht, fun addr width t h => busAddress_of_locate hp h, ?_⟩
  intro i addr width c h
  cases h
  exact ⟨locate_busAddress hp rfl, (decode_eq_ok_iff _ i).mpr rfl⟩

/-- Settles O20: the step is the pixel's write, which reads back and touches no other byte. -/
theorem pixelWriteStoresTheWord : Obligations.PixelWriteStoresTheWord := by
  intro s rest sp i w hp h hi
  refine ⟨memWrite (afterEvent s rest .done) sp i w, step_write_mem s rest sp i w hp hi h,
    readWord_memWrite_same _ sp i w,
    fun sp' a hother => readByte_memWrite_other (afterEvent s rest .done) sp sp' i a w hother,
    fun r => by rw [readReg_memWrite, readReg_afterEvent], ?_⟩
  cases sp <;> simp

/-- Settles O54: of what a draw can do, only a triangle changes DM, on a canvas that passed its check. -/
theorem drawStaysInsideTheCanvas : Obligations.DrawStaysInsideTheCanvas := by
  intro s
  obtain ⟨u, hu, _⟩ := exec_completesWithParams .drawtri s
  have he : DrawEffect s u := execDrawtri_effect hu
  exact ⟨u, hu, fun _ hne => he.dm_changed hne⟩

/-- Settles O21: the address is located at the pixel, and a read only records its answer. -/
theorem pixelReadReturnsTheWord : Obligations.PixelReadReturnsTheWord := by
  intro s rest sp i hp h hi
  have hvalue : busReadValue (busAddress s.params (.mem sp i)) 32 s = .data (readWord s sp i) := by
    simp only [busReadValue, locate_busAddress_mem s.params sp i hp hi]
  rw [step_read s rest _ _ h, hvalue]
  rfl

end Sys2Proof.Machine
end

section
/-! The encodings: which words decode to no command, and why (R80 to R83); which offsets of the register
aperture have a register (R73, R74). -/

namespace Sys2Proof.Machine

/-! ### Words that are no command -/

/-- A non-zero bit in `rsv` is reported before `op` is looked at (R80, R83). -/
theorem decode_of_rsvField_ne_zero {c : Word} (h : rsvField c ≠ 0) :
    decode c = .error (.reservedBits c) := if_pos h

/-- With `rsv` zero, a word that is no command's has an unknown `op` (R82, R83). -/
theorem decode_of_ne_encode {c : Word} (hrsv : rsvField c = 0) (h : ∀ i, c ≠ encode i) :
    decode c = .error (.unknownOp c) := by
  have hno : ∀ i, decode c ≠ .ok i := fun i hd => h i ((decode_eq_ok_iff c i).mp hd)
  unfold decode at hno ⊢
  rw [if_neg (not_not.mpr hrsv)] at hno ⊢
  repeat' split at hno
  case isFalse.isFalse.isFalse.isFalse hnop hsetctx hdrawtri hreset =>
    rw [if_neg hnop, if_neg hsetctx, if_neg hdrawtri, if_neg hreset]
  all_goals exact absurd rfl (hno _)

/-! ### Offsets with and without a register -/

/-- The offset of a register is where it is found, and no other (R73). -/
theorem ofOffset_eq_some_iff (off : Nat) (r : Reg) : Reg.ofOffset off = some r ↔ r.offset = off := by
  constructor
  · exact offset_of_ofOffset
  · rintro rfl
    exact ofOffset_offset r

/-- An offset names no register exactly when no register has it (R74). -/
theorem ofOffset_eq_none_iff (off : Nat) : Reg.ofOffset off = none ↔ ¬ ∃ r : Reg, r.offset = off := by
  simp only [Option.eq_none_iff_forall_ne_some, ne_eq, ofOffset_eq_some_iff, not_exists]

/-- The six registers of a vertex or matrix block take up the six words from the block's base (R73). -/
theorem exists_entry_offset {base off : Nat} (halign : off % 4 = base % 4) (hlow : base ≤ off)
    (hhigh : off ≤ base + 0x14) : ∃ k : Fin 6, base + 4 * k.val = off :=
  ⟨⟨(off - base) / 4, by omega⟩, by simp only; omega⟩

/-- The offsets that have a register, as the six runs of words in the table (R73). -/
theorem exists_offset_eq_iff (off : Nat) :
    (∃ r : Reg, r.offset = off) ↔ off % 4 = 0 ∧
      (off ≤ 0x008 ∨ (0x010 ≤ off ∧ off ≤ 0x024) ∨ (0x040 ≤ off ∧ off ≤ 0x054) ∨
        (0x060 ≤ off ∧ off ≤ 0x074) ∨ (0x080 ≤ off ∧ off ≤ 0x094) ∨ (0x0A0 ≤ off ∧ off ≤ 0x0B4)) := by
  constructor
  · rintro ⟨r, rfl⟩
    cases r with
    | v k | ctm k | loc k | xf k =>
      simp only [Reg.offset]
      omega
    | _ => decide
  · rintro ⟨halign, hcontrol | ⟨hlow, hhigh⟩ | ⟨hlow, hhigh⟩ | ⟨hlow, hhigh⟩ | ⟨hlow, hhigh⟩ |
      ⟨hlow, hhigh⟩⟩
    · obtain rfl | rfl | rfl : off = 0x000 ∨ off = 0x004 ∨ off = 0x008 := by omega
      exacts [⟨.cmd, rfl⟩, ⟨.status, rfl⟩, ⟨.errinfo, rfl⟩]
    · obtain rfl | rfl | rfl | rfl | rfl | rfl : off = 0x010 ∨ off = 0x014 ∨ off = 0x018 ∨
          off = 0x01C ∨ off = 0x020 ∨ off = 0x024 := by omega
      exacts [⟨.fbW, rfl⟩, ⟨.fbH, rfl⟩, ⟨.shader, rfl⟩, ⟨.color, rfl⟩, ⟨.texW, rfl⟩, ⟨.texH, rfl⟩]
    · obtain ⟨k, hk⟩ := exists_entry_offset (base := 0x040) halign hlow hhigh
      exact ⟨.v k, hk⟩
    · obtain ⟨k, hk⟩ := exists_entry_offset (base := 0x060) halign hlow hhigh
      exact ⟨.ctm k, hk⟩
    · obtain ⟨k, hk⟩ := exists_entry_offset (base := 0x080) halign hlow hhigh
      exact ⟨.loc k, hk⟩
    · obtain ⟨k, hk⟩ := exists_entry_offset (base := 0x0A0) halign hlow hhigh
      exact ⟨.xf k, hk⟩

/-! ### The obligations about encodings -/

/-- Settles O1: a word decodes to a command exactly when it is the command's word. -/
theorem decodeAcceptsExactlyTheFourWords : Obligations.DecodeAcceptsExactlyTheFourWords := fun c =>
  ⟨decode_eq_ok_iff c .nop, decode_eq_ok_iff c .setctx, decode_eq_ok_iff c .drawtri,
    decode_eq_ok_iff c .reset⟩

/-- Settles O3: the table by number, then the runs of offsets that have a register and the gaps between
them. -/
theorem registerOffsetsRoundTrip : Obligations.RegisterOffsetsRoundTrip := by
  refine ⟨by decide, by decide, by decide, by decide, by decide, ofOffset_eq_some_iff, ?_⟩
  intro off hlt halign
  rw [ofOffset_eq_none_iff, exists_offset_eq_iff]
  omega

/-- Settles O2: four words of commands, one with an unknown `op`, and one with a reserved bit. -/
theorem sampleCommandWordsDecode : Obligations.SampleCommandWordsDecode := by
  refine ⟨(decode_eq_ok_iff _ .nop).mpr rfl, (decode_eq_ok_iff _ .setctx).mpr rfl,
    (decode_eq_ok_iff _ .drawtri).mpr rfl, (decode_eq_ok_iff _ .reset).mpr rfl,
    decode_of_ne_encode (by decide) ?_, decode_of_rsvField_ne_zero (by decide)⟩
  intro i
  cases i <;> decide

end Sys2Proof.Machine
end

section
/-! The blender, channel by channel (R100 to R105): which byte each channel of a blend stores, and what an
opaque, a transparent and a valid source make of the destination. -/

namespace Sys2Proof.Machine

/-! ### Channels of a pixel word -/

section Channels
variable (a r g b : Byte)

@[simp] theorem chA_pixel : chA (pixel a r g b) = a.toNat :=
  congrArg BitVec.toNat <| (BitVec.extractLsb'_append_eq_of_le (by decide)).trans <|
    (BitVec.extractLsb'_append_eq_of_le (by decide)).trans <|
    (BitVec.extractLsb'_append_eq_of_le (by decide)).trans BitVec.extractLsb'_eq_self

@[simp] theorem chR_pixel : chR (pixel a r g b) = r.toNat :=
  congrArg BitVec.toNat <| (BitVec.extractLsb'_append_eq_of_le (by decide)).trans <|
    (BitVec.extractLsb'_append_eq_of_le (by decide)).trans BitVec.extractLsb'_append_eq_right

@[simp] theorem chG_pixel : chG (pixel a r g b) = g.toNat :=
  congrArg BitVec.toNat <|
    (BitVec.extractLsb'_append_eq_of_le (by decide)).trans BitVec.extractLsb'_append_eq_right

@[simp] theorem chB_pixel : chB (pixel a r g b) = b.toNat :=
  congrArg BitVec.toNat BitVec.extractLsb'_append_eq_right

end Channels

/-- The bytes of a pixel word are determined by the word (R86). -/
theorem pixel_inj {a r g b a' r' g' b' : Byte} (h : pixel a r g b = pixel a' r' g' b') :
    a = a' ∧ r = r' ∧ g = g' ∧ b = b' :=
  ⟨BitVec.eq_of_toNat_eq (by simpa using congrArg chA h),
    BitVec.eq_of_toNat_eq (by simpa using congrArg chR h),
    BitVec.eq_of_toNat_eq (by simpa using congrArg chG h),
    BitVec.eq_of_toNat_eq (by simpa using congrArg chB h)⟩

/-- A channel is one byte (R86). -/
theorem channels_le (p : Word) : chA p ≤ 255 ∧ chR p ≤ 255 ∧ chG p ≤ 255 ∧ chB p ≤ 255 :=
  ⟨Nat.le_of_lt_succ (BitVec.isLt _), Nat.le_of_lt_succ (BitVec.isLt _),
    Nat.le_of_lt_succ (BitVec.isLt _), Nat.le_of_lt_succ (BitVec.isLt _)⟩

/-- The channels of a pixel put together are the pixel (R86). -/
theorem pixel_ofNat_channels (p : Word) :
    pixel (BitVec.ofNat 8 (chA p)) (BitVec.ofNat 8 (chR p)) (BitVec.ofNat 8 (chG p))
      (BitVec.ofNat 8 (chB p)) = p := by
  simp only [chA, chR, chG, chB, BitVec.ofNat_toNat, BitVec.setWidth_eq]
  exact word_of_bytes p

/-- No colour channel of a valid pixel is above its alpha (R86). -/
theorem validPixel_iff (p : Word) :
    validPixel p = true ↔ chR p ≤ chA p ∧ chG p ≤ chA p ∧ chB p ≤ chA p := by
  simp [validPixel, and_assoc]

/-! ### The sum of one channel -/

/-- Since `255 · 65793 = 2^24 − 1`, the magic constant divides by 255 and rounds to nearest (R100, R102). -/
theorem magic_eq_rounded_division {v : Nat} (hv : v ≤ 65025) :
    (v * 65793 + 2 ^ 23) >>> 24 = (v + 127) / 255 := by
  rw [Nat.shiftRight_eq_div_pow]
  omega

/-- The sum of a channel as R102 writes it, for any alpha of the source. -/
theorem blendSum_eq (alpha c : Nat) {d : Nat} (hd : d ≤ 255) :
    blendSum (255 - alpha) c d = c + ((255 - alpha) * d + 127) / 255 := by
  have hv : (255 - alpha) * d ≤ 255 * 255 := Nat.mul_le_mul (Nat.sub_le 255 alpha) hd
  rw [blendSum, blendTerm, magic_eq_rounded_division hv]

/-- Under an opaque source nothing of the destination is left (R103). -/
@[simp] theorem blendSum_zero (c d : Nat) : blendSum 0 c d = c := by
  simp [blendSum, blendTerm]

/-- Under a transparent source all of the destination is left (R104). -/
theorem blendSum_transparent {d : Nat} (hd : d ≤ 255) : blendSum 255 0 d = d := by
  rw [show 255 = 255 - 0 from rfl, blendSum_eq 0 0 hd]
  omega

/-- A source channel that is at most the source's alpha never overflows (R105). -/
theorem blendSum_le {alpha c d : Nat} (hc : c ≤ alpha) (ha : alpha ≤ 255) (hd : d ≤ 255) :
    blendSum (255 - alpha) c d ≤ 255 := by
  have hterm : (255 - alpha) * d ≤ (255 - alpha) * 255 := Nat.mul_le_mul_left _ hd
  rw [blendSum_eq alpha c hd]
  omega

/-- The sum is monotone in both channels, so blending keeps a colour at most the alpha (R105). -/
theorem blendSum_mono (sub : Nat) {c c' d d' : Nat} (hc : c ≤ c') (hd : d ≤ d') :
    blendSum sub c d ≤ blendSum sub c' d' := by
  simp only [blendSum, blendTerm, Nat.shiftRight_eq_div_pow]
  gcongr

/-! ### The stored channel -/

/-- A sum that fits is stored, whatever the free value (R100, R105). -/
theorem blendChannel_of_le (free : Byte) {f : Nat} (hf : f ≤ 255) :
    blendChannel free f = BitVec.ofNat 8 f := if_pos hf

/-- The stored byte, read as a number, is the sum that fits. -/
theorem toNat_blendChannel (free : Byte) {f : Nat} (hf : f ≤ 255) :
    (blendChannel free f).toNat = f := by
  rw [blendChannel_of_le free hf, BitVec.toNat_ofNat]
  omega

/-- A channel that fits is the source's plus what R102 leaves of the destination's. -/
theorem toNat_blendChannel_blendSum (free : Byte) (alpha c : Nat) {d : Nat} (hd : d ≤ 255)
    (hfit : c + ((255 - alpha) * d + 127) / 255 ≤ 255) :
    (blendChannel free (blendSum (255 - alpha) c d)).toNat =
      c + ((255 - alpha) * d + 127) / 255 := by
  rw [blendSum_eq alpha c hd, toNat_blendChannel free hfit]

/-! ### Blends of whole pixels -/

section Blend
variable (fa fr fg fb : Byte) {s : Word} (d : Word)

/-- An opaque source replaces the destination (R103). -/
theorem blend_of_opaque (hs : chA s = 255) : blend fa fr fg fb s d = s := by
  obtain ⟨ha, hr, hg, hb⟩ := channels_le s
  simp only [blend, show 255 - chA s = 0 by omega, blendSum_zero, blendChannel_of_le, ha, hr, hg, hb,
    pixel_ofNat_channels]

/-- The transparent pixel leaves the destination (R104). -/
theorem blend_transparent : blend fa fr fg fb 0x00000000 d = d := by
  obtain ⟨ha, hr, hg, hb⟩ := channels_le d
  have hzero : chA 0 = 0 ∧ chR 0 = 0 ∧ chG 0 = 0 ∧ chB 0 = 0 := by decide
  obtain ⟨ha0, hr0, hg0, hb0⟩ := hzero
  simp only [blend, ha0, hr0, hg0, hb0, Nat.sub_zero, blendSum_transparent, blendChannel_of_le, ha, hr,
    hg, hb, pixel_ofNat_channels]

/-- Under a valid source no channel's sum is above 255, whatever the destination (R105). -/
theorem blendSums_le (hs : validPixel s = true) :
    blendSum (255 - chA s) (chA s) (chA d) ≤ 255 ∧ blendSum (255 - chA s) (chR s) (chR d) ≤ 255 ∧
    blendSum (255 - chA s) (chG s) (chG d) ≤ 255 ∧ blendSum (255 - chA s) (chB s) (chB d) ≤ 255 := by
  obtain ⟨hr, hg, hb⟩ := (validPixel_iff s).mp hs
  obtain ⟨hsa, _⟩ := channels_le s
  obtain ⟨hda, hdr, hdg, hdb⟩ := channels_le d
  exact ⟨blendSum_le le_rfl hsa hda, blendSum_le hr hsa hdr, blendSum_le hg hsa hdg,
    blendSum_le hb hsa hdb⟩

/-- A valid source uses none of the free values (R105). -/
theorem blend_of_validPixel (hs : validPixel s = true) :
    blend fa fr fg fb s d =
      pixel (BitVec.ofNat 8 (blendSum (255 - chA s) (chA s) (chA d)))
        (BitVec.ofNat 8 (blendSum (255 - chA s) (chR s) (chR d)))
        (BitVec.ofNat 8 (blendSum (255 - chA s) (chG s) (chG d)))
        (BitVec.ofNat 8 (blendSum (255 - chA s) (chB s) (chB d))) := by
  obtain ⟨ha, hr, hg, hb⟩ := blendSums_le d hs
  simp only [blend, blendChannel_of_le, ha, hr, hg, hb]

/-- A valid source over a valid destination gives a valid pixel (R105). -/
theorem validPixel_blend (hs : validPixel s = true) (hd : validPixel d = true) :
    validPixel (blend fa fr fg fb s d) = true := by
  obtain ⟨ha, hr, hg, hb⟩ := blendSums_le d hs
  obtain ⟨hsr, hsg, hsb⟩ := (validPixel_iff s).mp hs
  obtain ⟨hdr, hdg, hdb⟩ := (validPixel_iff d).mp hd
  rw [validPixel_iff, blend]
  simp only [chA_pixel, chR_pixel, chG_pixel, chB_pixel, toNat_blendChannel, ha, hr, hg, hb]
  exact ⟨blendSum_mono _ hsr hdr, blendSum_mono _ hsg hdg, blendSum_mono _ hsb hdb⟩

end Blend

/-! ### The obligations about the blender -/

/-- Settles O39: the stored byte of each channel is the sum, once that is written with the rounded
division. -/
theorem blendIsRoundedDivision : Obligations.BlendIsRoundedDivision := by
  refine ⟨fun v hv => magic_eq_rounded_division hv, fun fa fr fg fb s d => ?_⟩
  obtain ⟨ha, hr, hg, hb⟩ := channels_le d
  simp only [blend, chA_pixel, chR_pixel, chG_pixel, chB_pixel]
  exact ⟨toNat_blendChannel_blendSum fa _ _ ha, toNat_blendChannel_blendSum fr _ _ hr,
    toNat_blendChannel_blendSum fg _ _ hg, toNat_blendChannel_blendSum fb _ _ hb⟩

/-- Settles O40: the destination's term is 0 under alpha 255, and the destination's channel under the
transparent pixel. -/
theorem opaqueReplacesAndTransparentKeeps : Obligations.OpaqueReplacesAndTransparentKeeps :=
  fun fa fr fg fb _ d => ⟨blend_of_opaque fa fr fg fb d, blend_transparent fa fr fg fb d⟩

/-- Settles O41: no sum overflows, and the sums are monotone in the channels. -/
theorem blendOfValidPixelsIsValid : Obligations.BlendOfValidPixelsIsValid := by
  intro fa fr fg fb ga gr gg gb s d hs
  refine ⟨?_, validPixel_blend fa fr fg fb d hs⟩
  rw [blend_of_validPixel fa fr fg fb d hs, blend_of_validPixel ga gr gg gb d hs]

end Sys2Proof.Machine
end

section
/-! What a triangle does to each pixel word of DM (R159), and what follows when the shaded pixels are
transparent (R104) or valid (R105, R228). -/

namespace Sys2Proof.Machine

/-! ### Words and their bytes -/

/-- What a pixel word reads as depends on its memory and the power-on count alone. -/
theorem readWord_of_memOf_eq {s t : State} {sp : Space} (hpow : t.powerOns = s.powerOns)
    (hm : memOf t sp = memOf s sp) (i : Nat) : readWord t sp i = readWord s sp i :=
  readWord_congr hpow fun a _ => congrArg (byteAt? · a) hm

/-- The bytes of a pixel word are determined by the word. -/
theorem readByte_of_readWord_eq {s t : State} {sp : Space} {a : Nat}
    (h : readWord t sp (a / 4) = readWord s sp (a / 4)) : readByte t sp a = readByte s sp a := by
  obtain ⟨h3, h2, h1, h0⟩ := pixel_inj h
  obtain hlane | hlane | hlane | hlane :
      a = 4 * (a / 4) ∨ a = 4 * (a / 4) + 1 ∨ a = 4 * (a / 4) + 2 ∨ a = 4 * (a / 4) + 3 := by omega
  all_goals
    rw [hlane]
    assumption

/-! ### The pixels of a triangle -/

/-- Pixel `(x, y)` is in the rows and columns that the scanline loop visits: the clipped bounds as a corner
and the counts of columns and rows (R151, R154). -/
def visitedPixel (s : State) (t : Fixed) (x y : Nat) : Prop :=
  (boundsOn s t).xmin.toNat ≤ x ∧
  x < (boundsOn s t).xmin.toNat + ((boundsOn s t).xmax - (boundsOn s t).xmin).toNat ∧
  (boundsOn s t).ymin.toNat ≤ y ∧
  y < (boundsOn s t).ymin.toNat + ((boundsOn s t).ymax - (boundsOn s t).ymin).toNat

/-- The drawn pixels are those that the loop visits and finds covered (R158, R159). -/
theorem drawnPixel_iff (s : State) (t : Fixed) (x y : Nat) :
    drawnPixel s t x y ↔ visitedPixel s t x y ∧ covered (accAt (mkEdges t) x y) = true := by
  obtain ⟨hx0, hy0, _⟩ := boundsOn_range s t
  rw [covered_accAt]
  unfold drawnPixel visitedPixel
  constructor
  · rintro ⟨hx, hxm, hy, hym, hin⟩
    exact ⟨by omega, hin⟩
  · rintro ⟨hvisited, hin⟩
    exact ⟨by omega, by omega, by omega, by omega, hin⟩

section Pixels
variable {t : Fixed} {s : State} {x y : Nat}

/-- A triangle blends the shaded pixel over the word that a drawn pixel held (R154 to R159). -/
theorem readWord_drawTriangle_of_drawn {p : Word} (hd : drawnPixel s t x y)
    (hp : (shadeRow s (boundsOn s t).xmin.toNat y
      ((boundsOn s t).xmax - (boundsOn s t).xmin).toNat)[x - (boundsOn s t).xmin.toNat]? = some p) :
    readWord (drawTriangle t s) .dm (pixelIndex s.fbW.toNat x y) =
      blendAt s.freeCount (pixelIndex s.fbW.toNat x y) p
        (readWord s .dm (pixelIndex s.fbW.toNat x y)) := by
  obtain ⟨⟨hx, hxc, hy, hyc⟩, hcov⟩ := (drawnPixel_iff s t x y).mp hd
  obtain ⟨hx0, _, hxw, _⟩ := boundsOn_range s t
  rcases drawTriangle_cases t s with ⟨he, _⟩ | ⟨_, h⟩
  · have hempty := (emptyBounds_iff (boundsOn s t)).mp he
    omega
  · rw [← readWord_memWrite_same s .dm (pixelIndex s.fbW.toNat x y) (blendAt _ _ p _)]
    refine readWord_congr (by simp) fun a ha => ?_
    rw [h, memOf, drawFree_dm, drawRows_at _ _ _ _ _ _ s x y a p (by omega) hx hxc hy hyc ha hp,
      if_pos hcov, ha]
    rfl

/-- A triangle leaves every byte alone that belongs to no drawn pixel (R159). -/
theorem byteAt?_drawTriangle_of_not_drawn {o : Nat}
    (ho : ∀ x y, drawnPixel s t x y → o / 4 ≠ pixelIndex s.fbW.toNat x y) :
    byteAt? (drawTriangle t s).dm o = byteAt? s.dm o := by
  obtain ⟨hx0, _, hxw, _⟩ := boundsOn_range s t
  rcases drawTriangle_cases t s with ⟨_, h⟩ | ⟨hne, h⟩
  · rw [h]
  have hbounds := (emptyBounds_iff (boundsOn s t)).not.mp (by simp [hne])
  rw [h, drawFree_dm]
  by_cases hin : ∃ x y, visitedPixel s t x y ∧ o / 4 = pixelIndex s.fbW.toNat x y
  · obtain ⟨x, y, hvisited, hoxy⟩ := hin
    have hcov : ¬ covered (accAt (mkEdges t) x y) = true := fun hcov =>
      ho x y ((drawnPixel_iff s t x y).mpr ⟨hvisited, hcov⟩) hoxy
    obtain ⟨hx, hxc, hy, hyc⟩ := hvisited
    rw [drawRows_at _ _ _ _ _ _ s x y o _ (by omega) hx hxc hy hyc hoxy
      (List.getElem?_eq_getElem (by rw [length_shadeRow]; omega)), if_neg hcov]
  · exact drawRows_other _ _ _ _ _ _ _ s o fun x y hx hxc hy hyc hoxy =>
      hin ⟨x, y, ⟨hx, hxc, hy, hyc⟩, hoxy⟩

end Pixels

/-- A triangle leaves a word of DM as it was, or blends a pixel that the shader gave over it (R159). -/
theorem readWord_drawTriangle_cases (t : Fixed) (s : State) (k : Nat) :
    readWord (drawTriangle t s) .dm k = readWord s .dm k ∨
    ∃ x y n p, p ∈ shadeRow s x y n ∧
      readWord (drawTriangle t s) .dm k = blendAt s.freeCount k p (readWord s .dm k) := by
  by_cases hdrawn : ∃ x y, drawnPixel s t x y ∧ k = pixelIndex s.fbW.toNat x y
  · obtain ⟨x, y, hd, rfl⟩ := hdrawn
    obtain ⟨⟨hx, hxc, _⟩, _⟩ := (drawnPixel_iff s t x y).mp hd
    have hlt : x - (boundsOn s t).xmin.toNat < (shadeRow s (boundsOn s t).xmin.toNat y
        ((boundsOn s t).xmax - (boundsOn s t).xmin).toNat).length := by
      rw [length_shadeRow]
      omega
    exact .inr ⟨_, y, _, _, List.getElem_mem hlt,
      readWord_drawTriangle_of_drawn hd (List.getElem?_eq_getElem hlt)⟩
  · refine .inl (readWord_congr (by simp) fun a ha => ?_)
    refine byteAt?_drawTriangle_of_not_drawn fun x y hd hk => ?_
    exact hdrawn ⟨x, y, hd, ha.symm.trans hk⟩

/-! ### Shaded pixels -/

/-- In colour mode every shaded pixel is `COLOR` (R124). -/
theorem eq_color_of_mem_shadeRow {s : State} {x y n : Nat} {p : Word} (hs : s.shader.toNat = 0)
    (hp : p ∈ shadeRow s x y n) : p = s.color := by
  rw [shadeRow, if_pos hs] at hp
  exact List.eq_of_mem_replicate hp

/-- In bitmap mode every shaded pixel is a texel (R128). -/
theorem exists_texel_of_mem_shadeBitmapFrom {s : State} {n : Nat} {u v p : Word}
    (hp : p ∈ shadeBitmapFrom s n u v) : ∃ u' v', p = sampleTexel s u' v' := by
  induction n generalizing u v with
  | zero => cases hp
  | succ n ih =>
    rcases List.mem_cons.mp hp with rfl | hrest
    · exact ⟨u, v, rfl⟩
    · exact ih hrest

/-- A texel index stays inside the texture, for every pattern of the coordinate (R127). -/
theorem texIdx_lt (f : Numerics) (nanIndex : Nat) (t : Word) {n : Nat} (hn : 1 ≤ n) :
    texIdx f nanIndex t n < n := by
  unfold texIdx
  split
  case h_4 =>
    unfold clampIndex
    omega
  all_goals omega

/-- A texel that is sampled lies in TM when the texture fits it (R58). -/
theorem exists_index_of_sampleTexel {s : State} (hw : 1 ≤ s.texW.toNat) (hh : 1 ≤ s.texH.toNat)
    (hfit : s.texW.toNat * s.texH.toNat ≤ s.params.tmPixels) (u v : Word) :
    ∃ i, i < s.params.tmPixels ∧ sampleTexel s u v = readWord s .tm i :=
  ⟨_, (pixelIndex_lt (texIdx_lt _ _ _ hw) (texIdx_lt _ _ _ hh)).trans_le hfit, rfl⟩

/-- On valid images the shader gives valid pixels: `COLOR` or texels (R124, R128, R228). -/
theorem validPixel_of_mem_shadeRow {s : State} {x y n : Nat} {p : Word} (hc : configured s)
    (hv : validImages s) (hp : p ∈ shadeRow s x y n) : validPixel p = true := by
  obtain ⟨hcolor, htm, _⟩ := hv
  obtain ⟨hshader, _, _, _, htex⟩ := hc
  by_cases hmode : s.shader.toNat = 0
  · rwa [eq_color_of_mem_shadeRow hmode hp]
  · obtain ⟨hw, hh, _, _, hfit⟩ := htex (by omega)
    rw [shadeRow, if_neg hmode] at hp
    obtain ⟨u, v, rfl⟩ := exists_texel_of_mem_shadeBitmapFrom hp
    obtain ⟨i, hi, htexel⟩ := exists_index_of_sampleTexel hw hh hfit u v
    rw [htexel]
    exact htm i hi

/-! ### What a draw does to DM -/

/-- A draw leaves DM alone, or it draws a triangle on a configuration that passed its checks (R142). -/
theorem execDrawtri_dm_cases {s u : State} (h : execDrawtri s = .next u) :
    u.dm = s.dm ∨ (configured s ∧ ∃ t, u = drawTriangle t (setContext s)) := by
  rcases execDrawtri_cases s with ⟨_, hs⟩ | ⟨_, n, _, hs⟩ | ⟨_, hc, hs⟩ <;> cases h.symm.trans hs
  · exact .inl rfl
  · exact .inl rfl
  · rcases drawAfterContext_cases (setContext s) with ⟨_, h⟩ | ⟨_, k, _, h⟩ | ⟨_, t, _, h⟩ <;> rw [h]
    · exact .inl (setContext_dm s)
    · exact .inl (setContext_dm s)
    · exact .inr ⟨configCheck_none s hc, t, rfl⟩

@[simp] theorem setContext_shader (s : State) : (setContext s).shader = s.shader := by
  rw [setContext_frame]

@[simp] theorem setContext_color (s : State) : (setContext s).color = s.color := by
  rw [setContext_frame]

/-- `SET_CONTEXT` writes nothing that the configuration checks read (R117, R142). -/
theorem configured_setContext {s : State} (h : configured s) : configured (setContext s) := by
  rw [setContext_frame]
  exact h

/-- `SET_CONTEXT` writes neither `COLOR` nor a memory (R117). -/
theorem validImages_setContext {s : State} (h : validImages s) : validImages (setContext s) := by
  rw [setContext_frame]
  exact h

/-- With the transparent colour a triangle leaves every word of DM as it was (R104). -/
theorem readWord_drawTriangle_transparent (t : Fixed) {s : State} (hs : s.shader.toNat = 0)
    (hc : s.color = 0x00000000) (k : Nat) :
    readWord (drawTriangle t s) .dm k = readWord s .dm k := by
  rcases readWord_drawTriangle_cases t s k with h | ⟨x, y, n, p, hp, h⟩
  · exact h
  · rw [h, eq_color_of_mem_shadeRow hs hp, hc]
    exact blend_transparent _ _ _ _ _

/-- On a configuration that passed its checks a triangle keeps every valid word of DM valid (R105). -/
theorem validPixel_drawTriangle (t : Fixed) {s : State} (hc : configured s) (hv : validImages s)
    {k : Nat} (hk : validPixel (readWord s .dm k) = true) :
    validPixel (readWord (drawTriangle t s) .dm k) = true := by
  rcases readWord_drawTriangle_cases t s k with h | ⟨x, y, n, p, hp, h⟩
  · rwa [h]
  · rw [h]
    exact validPixel_blend _ _ _ _ _ (validPixel_of_mem_shadeRow hc hv hp) hk

/-- A draw writes neither `COLOR` nor TM, so it keeps the images valid when the words of DM stay valid. -/
theorem DrawEffect.validImages_of_dm {s u : State} (he : DrawEffect s u) (h : validImages s)
    (hdm : ∀ k, k < s.params.dmPixels → validPixel (readWord u .dm k) = true) :
    validImages u := by
  obtain ⟨hcolor, htm, _⟩ := h
  obtain ⟨htmSame, hparams, hpow, _⟩ := he.frame
  have hcolorSame : u.color = s.color := he.readReg (r := .color) rfl
  unfold validImages
  rw [hcolorSame, hparams]
  refine ⟨hcolor, fun i hi => ?_, hdm⟩
  rw [readWord_of_memOf_eq (sp := .tm) hpow htmSame]
  exact htm i hi

/-! ### The obligations about what a draw blends -/

/-- Settles O57: each word of DM is kept, or is the blend of a valid pixel over it. -/
theorem drawKeepsImagesValid : Obligations.DrawKeepsImagesValid := by
  intro s hv
  obtain ⟨u, hu, _⟩ := exec_completesWithParams .drawtri s
  have he : DrawEffect s u := execDrawtri_effect hu
  obtain ⟨_, _, hpow, _⟩ := he.frame
  have ⟨_, _, hdm⟩ := hv
  refine ⟨u, hu, he.validImages_of_dm hv fun k hk => ?_⟩
  rcases execDrawtri_dm_cases hu with hsame | ⟨hc, t, rfl⟩
  · rw [readWord_of_memOf_eq (sp := .dm) hpow hsame]
    exact hdm k hk
  · have hctx := validImages_setContext hv
    have ⟨_, _, hdmctx⟩ := hctx
    exact validPixel_drawTriangle t (configured_setContext hc) hctx (hdmctx k (by simpa using hk))

/-- Settles O56: each word of DM is kept, or is the blend of the transparent pixel over it. -/
theorem transparentColourChangesNoPixel : Obligations.TransparentColourChangesNoPixel := by
  intro s hs hc
  obtain ⟨u, hu, _⟩ := exec_completesWithParams .drawtri s
  have he : DrawEffect s u := execDrawtri_effect hu
  obtain ⟨_, _, hpow, _⟩ := he.frame
  refine ⟨u, hu, fun a => ?_⟩
  rcases execDrawtri_dm_cases hu with hsame | ⟨_, t, rfl⟩
  · exact readByte_congr hpow (congrArg (byteAt? · a) hsame)
  · calc readByte (drawTriangle t (setContext s)) .dm a
        = readByte (setContext s) .dm a :=
          readByte_of_readWord_eq (readWord_drawTriangle_transparent t (by simpa) (by simpa) (a / 4))
      _ = readByte s .dm a := readByte_congr (by simp) (by simp [memOf])

end Sys2Proof.Machine
end

section
/-! Binary32 patterns by sign, exponent field and fraction (R87): which patterns are NaN, infinite, zero or
finite, what negation does to the fields (R111), and the value of a finite pattern in units of 2^−149. -/

namespace Sys2Proof.Machine

/-! ### The fields of a pattern -/

theorem isNaN_iff (w : Word) : isNaN w = true ↔ expField w = 255 ∧ fracField w ≠ 0 := by
  simp [isNaN]

theorem isInf_iff (w : Word) : isInf w = true ↔ expField w = 255 ∧ fracField w = 0 := by
  simp [isInf]

theorem isFinite_iff (w : Word) : isFinite w = true ↔ expField w ≠ 255 := by
  simp [isFinite]

theorem pattern_cases (w : Word) : isNaN w = true ∨ isInf w = true ∨ isFinite w = true := by
  rw [isNaN_iff, isInf_iff, isFinite_iff]
  omega

section WithSign
variable {mag : Nat} (neg : Bool) (h : mag < 2 ^ 31)
include h

theorem expField_withSign : expField (withSign neg mag) = mag / 2 ^ 23 := by
  rw [expField, toNat_withSign neg mag h]
  split <;> omega

theorem fracField_withSign : fracField (withSign neg mag) = mag % 2 ^ 23 := by
  rw [fracField, toNat_withSign neg mag h]
  split <;> omega

theorem signBit_withSign : signBit (withSign neg mag) = neg := by
  rw [signBit, toNat_withSign neg mag h]
  cases neg
  · simpa using h
  · simp

end WithSign

/-- A pattern is its sign with its two other fields (R87). -/
theorem withSign_fields (w : Word) :
    withSign (signBit w) (expField w * 2 ^ 23 + fracField w) = w := by
  apply BitVec.eq_of_toNat_eq
  have hw : w.toNat < 2 ^ 32 := w.isLt
  unfold expField fracField
  rw [toNat_withSign _ _ (by omega)]
  by_cases hs : 2 ^ 31 ≤ w.toNat
  · simp only [signBit, hs, decide_true, if_true]
    omega
  · simp only [signBit, hs, decide_false, Bool.false_eq_true, if_false]
    omega

/-- An infinity is the one of its sign. -/
theorem eq_infOf_of_isInf {w : Word} (h : isInf w = true) : w = infOf (signBit w) := by
  obtain ⟨he, hf⟩ := (isInf_iff w).1 h
  calc w = withSign (signBit w) (255 * 2 ^ 23 + 0) := by rw [← he, ← hf, withSign_fields]
    _ = infOf (signBit w) := rfl

/-- The zeros are the patterns with both fields zero (R87, R112). -/
theorem feq0_iff (w : Word) : feq0 w = true ↔ expField w = 0 ∧ fracField w = 0 := by
  constructor
  · intro h
    have hw : w = 0x00000000 ∨ w = 0x80000000 := by simpa [feq0] using h
    rcases hw with rfl | rfl <;> decide
  · rintro ⟨he, hf⟩
    rw [← withSign_fields w, he, hf]
    cases signBit w <;> decide

theorem feq0_false_iff (w : Word) : feq0 w = false ↔ ¬ (expField w = 0 ∧ fracField w = 0) := by
  rw [← feq0_iff, Bool.not_eq_true]

/-- The infinity that a quotient or a product of the two signs overflows to. -/
theorem infOf_xor (s t : Bool) : infOf (s ^^ t) = if s = t then 0x7F800000 else 0xFF800000 := by
  cases s <;> cases t <;> rfl

theorem zeroOf_xor (s t : Bool) : zeroOf (s ^^ t) = if s = t then 0x00000000 else 0x80000000 := by
  cases s <;> cases t <;> rfl

/-! ### Negation -/

theorem fneg_getLsbD (a : Word) {i : Nat} (hi : i < 32) :
    (fneg a).getLsbD i = if i = 31 then !a.getLsbD 31 else a.getLsbD i := by
  have hmask : (0x80000000 : Word).getLsbD i = decide (i = 31) := by
    interval_cases i <;> rfl
  rw [fneg, BitVec.getLsbD_xor, hmask]
  by_cases h31 : i = 31 <;> simp [h31]

theorem expField_eq_extract (w : Word) : expField w = (w.extractLsb' 23 8).toNat := by
  simp [expField, Nat.shiftRight_eq_div_pow]

theorem fracField_eq_extract (w : Word) : fracField w = (w.extractLsb' 0 23).toNat := by
  simp [fracField]

theorem signBit_eq_msb (w : Word) : signBit w = w.msb := by
  rw [signBit, BitVec.msb_eq_decide]

@[simp] theorem expField_fneg (a : Word) : expField (fneg a) = expField a := by
  simp [expField_eq_extract, fneg, BitVec.extractLsb'_xor]

@[simp] theorem fracField_fneg (a : Word) : fracField (fneg a) = fracField a := by
  simp [fracField_eq_extract, fneg, BitVec.extractLsb'_xor]

/-- Negation turns the sign; the two other fields stay (R87, R111). -/
@[simp] theorem signBit_fneg (a : Word) : signBit (fneg a) = !signBit a := by
  rw [signBit_eq_msb, signBit_eq_msb, fneg, BitVec.msb_xor, show (0x80000000 : Word).msb = true from rfl,
    Bool.xor_true]

/-! ### Reading a pattern -/

theorem unpack_of_isNaN {w : Word} (h : isNaN w = true) : unpack w = .nan := (unpack_nan_iff w).2 h

theorem unpack_of_isInf {w : Word} (h : isInf w = true) : unpack w = .inf (signBit w) := by
  obtain ⟨he, hf⟩ := (isInf_iff w).1 h
  rw [unpack, if_pos he, if_pos hf]

/-- A finite pattern is read as a significand below 2^24 times a power of two, a whole number of units; it
is a zero exactly when the significand is (R87). -/
theorem exists_unpack_of_isFinite {w : Word} (h : isFinite w = true) :
    ∃ m a : Nat, unpack w = .fin (signBit w) m ((a : Int) - 149) ∧ m < 2 ^ 24 ∧
      (feq0 w = true ↔ m = 0) ∧ unitsOf w = signed (signBit w) ((m * 2 ^ a : Nat) : Int) := by
  have he := (isFinite_iff w).1 h
  have hf : fracField w < 2 ^ 23 := Nat.mod_lt _ (by decide)
  rw [feq0_iff]
  by_cases h0 : expField w = 0
  · have hu : unpack w = .fin (signBit w) (fracField w) (-149) := by rw [unpack, if_neg he, if_pos h0]
    exact ⟨fracField w, 0, hu, by omega, by omega, by simp [unitsOf, hu]⟩
  · have hu : unpack w = .fin (signBit w) (2 ^ 23 + fracField w) ((expField w : Int) - 150) := by
      rw [unpack, if_neg he, if_neg h0]
    have hexp : (expField w : Int) - 150 = ((expField w - 1 : Nat) : Int) - 149 := by omega
    rw [hexp] at hu
    refine ⟨_, expField w - 1, hu, by omega, by omega, ?_⟩
    simp [unitsOf, hu]

/-! ### Signed magnitudes -/

theorem signed_mul_signed (s t : Bool) (x y : Int) :
    signed s x * signed t y = signed (s ^^ t) (x * y) := by
  cases s <;> cases t <;> simp [signed]

theorem signed_mul (s : Bool) (x y : Int) : signed s (x * y) = signed s x * y := by
  cases s <;> simp [signed]

theorem signed_sub (s : Bool) (x y : Int) : signed s (x - y) = signed s x - signed s y := by
  cases s <;> simp [signed]; ring

@[simp] theorem abs_signed (s : Bool) (x : Int) : |signed s x| = |x| := by
  cases s <;> simp [signed]

@[simp] theorem signed_zero (s : Bool) : signed s 0 = 0 := by
  cases s <;> rfl

theorem signed_not (s : Bool) (x : Int) : signed (!s) x = -signed s x := by
  cases s <;> simp [signed]

/-- An integer is its magnitude with its sign. -/
theorem signed_natAbs (x : Int) : signed (decide (x < 0)) (x.natAbs : Int) = x := by
  by_cases h : x < 0
  · simp only [signed, h, decide_true, if_true]
    omega
  · simp only [signed, h, decide_false, Bool.false_eq_true, if_false]
    omega

/-! ### Negation of values -/

@[simp] theorem isNaN_fneg (a : Word) : isNaN (fneg a) = isNaN a := by simp [isNaN]

@[simp] theorem isInf_fneg (a : Word) : isInf (fneg a) = isInf a := by simp [isInf]

@[simp] theorem isFinite_fneg (a : Word) : isFinite (fneg a) = isFinite a := by simp [isFinite]

theorem unitsOf_fneg (a : Word) : unitsOf (fneg a) = -unitsOf a := by
  unfold unitsOf unpack
  rw [expField_fneg, fracField_fneg, signBit_fneg]
  split_ifs <;> simp [signed_not]

end Sys2Proof.Machine
end

section
/-! One rounding of an exact value (R110): rounding to even of a quotient of naturals, the last place that the
model rounds at, and why the pattern it packs is the binary32 nearest to the exact value. -/

namespace Sys2Proof.Machine

/-! ### Rounding a quotient to even -/

/-- `N` is `M / P` rounded to the nearest integer, ties to the even one. -/
def IsRne (N P M : Nat) : Prop :=
  2 * (N * P) ≤ 2 * M + P ∧ 2 * M ≤ 2 * (N * P) + P ∧
  (2 * (N * P) = 2 * M + P ∨ 2 * M = 2 * (N * P) + P → N % 2 = 0)

theorem isRne_self (N : Nat) {P : Nat} (hP : 0 < P) : IsRne N P (N * P) :=
  ⟨by omega, by omega, by omega⟩

theorem IsRne.scale {N P M : Nat} (h : IsRne N P M) {c : Nat} (hc : 0 < c) :
    IsRne N (P * c) (M * c) := by
  obtain ⟨hlow, hhigh, htie⟩ := h
  have hN : 2 * (N * (P * c)) = 2 * (N * P) * c := by ring
  have hM : 2 * (M * c) = 2 * M * c := by ring
  unfold IsRne
  rw [hN, hM, ← Nat.add_mul, ← Nat.add_mul]
  refine ⟨Nat.mul_le_mul_right c hlow, Nat.mul_le_mul_right c hhigh, fun h => htie ?_⟩
  exact h.imp (Nat.eq_of_mul_eq_mul_right hc) (Nat.eq_of_mul_eq_mul_right hc)

/-- `Q` is `Y / n`, or has at least two bits more than a significand keeps and a last bit set that stands for
the remainder between its even neighbours: one rounding of it is the rounding of the quotient. -/
def RoundedToOdd (Q Y n : Nat) : Prop :=
  Q * n = Y ∨ (2 ^ 25 ≤ Q ∧ Q % 2 = 1 ∧ Q * n < Y + n ∧ Y < Q * n + n)

/-- Rounding off two or more bits cannot tell a remainder from the last bit that stands for it. -/
theorem isRne_rneShift_of_roundedToOdd {Q Y n k : Nat} (hn : 0 < n) (h : RoundedToOdd Q Y n)
    (hk : 2 ^ 25 ≤ Q → 2 ≤ k) : IsRne (rneShift Q k) (2 ^ k * n) Y := by
  have hrne : IsRne (rneShift Q k) (2 ^ k) Q := rneShift_spec Q k
  rcases h with rfl | ⟨hbits, hodd, hlow, hhigh⟩
  · exact hrne.scale hn
  obtain ⟨c, rfl⟩ : ∃ c, k = c + 2 := ⟨k - 2, by have := hk hbits; omega⟩
  obtain ⟨h1, h2, -⟩ := hrne
  generalize rneShift Q (c + 2) = N at *
  rw [pow_add] at *
  generalize 2 ^ c = p at *
  have hN : N * (p * 2 ^ 2) = 4 * (N * p) := by ring
  rw [hN] at h1 h2
  have h1' : (4 * (N * p) + 1) * n ≤ (Q + 2 * p) * n := Nat.mul_le_mul_right n (by omega)
  have h2' : (Q + 1) * n ≤ (4 * (N * p) + 2 * p) * n := Nat.mul_le_mul_right n (by omega)
  have hNn : N * (p * 2 ^ 2 * n) = 4 * (N * p) * n := by ring
  have hpn : p * 2 ^ 2 * n = 4 * (p * n) := by ring
  have hpn' : 2 * p * n = 2 * (p * n) := by ring
  rw [Nat.add_mul, Nat.add_mul] at h1' h2'
  unfold IsRne
  rw [hNn, hpn]
  omega

theorem RoundedToOdd.pow_mul_le {Q Y n l : Nat} (h : RoundedToOdd Q Y n) (hl : 2 ^ l ≤ Q) :
    2 ^ l * n ≤ Y := by
  rcases h with rfl | ⟨hbits, hodd, hlow, _⟩
  · exact Nat.mul_le_mul_right n hl
  · cases l with
    | zero =>
      have : 1 * n + n ≤ Q * n := by rw [← Nat.add_one_mul]; exact Nat.mul_le_mul_right n (by omega)
      omega
    | succ l =>
      have : (2 ^ (l + 1) + 1) * n ≤ Q * n := Nat.mul_le_mul_right n (by rw [pow_succ] at *; omega)
      rw [Nat.add_one_mul] at this
      omega

theorem RoundedToOdd.lt_pow_mul {Q Y n l : Nat} (hn : 0 < n) (h : RoundedToOdd Q Y n)
    (hl : Q < 2 ^ l) : Y < 2 ^ l * n := by
  rcases h with rfl | ⟨_, _, _, hhigh⟩
  · exact Nat.mul_lt_mul_of_pos_right hl hn
  · calc Y < (Q + 1) * n := by rwa [Nat.add_one_mul]
      _ ≤ 2 ^ l * n := Nat.mul_le_mul_right n hl

/-! ### Rounding at the last place -/

/-- The value `X / K`, in units of 2^−149, rounded to `N` steps of `2 ^ j` units, where a step is the last
place of a binary32 of that size: 24 bits cover the value, and fewer than 24 only in the smallest step. -/
structure RoundsTo (K X j N : Nat) : Prop where
  rne : IsRne N (2 ^ j * K) X
  lower : j = 0 ∨ 2 ^ 23 * (2 ^ j * K) ≤ X
  upper : X < 2 ^ 24 * (2 ^ j * K)

theorem RoundsTo.le {K X j N : Nat} (h : RoundsTo K X j N) : N ≤ 2 ^ 24 := by
  obtain ⟨⟨hlow, _, _⟩, _, hupper⟩ := h
  have : N * (2 ^ j * K) < (2 ^ 24 + 1) * (2 ^ j * K) := by omega
  have := Nat.lt_of_mul_lt_mul_right this
  omega

theorem RoundsTo.normal {K X j N : Nat} (hK : 0 < K) (h : RoundsTo K X j N) : j = 0 ∨ 2 ^ 23 ≤ N := by
  obtain ⟨⟨_, hhigh, _⟩, hlower, _⟩ := h
  have hP : 0 < 2 ^ j * K := Nat.mul_pos (Nat.two_pow_pos j) hK
  refine hlower.imp_right fun hlower => ?_
  have : (2 ^ 23 - 1) * (2 ^ j * K) < N * (2 ^ j * K) := by omega
  have := Nat.lt_of_mul_lt_mul_right this
  omega

/-- The model rounds at the last place: `m` units of `2 ^ e` stand for the value `Y / n` times `2 ^ e`. -/
theorem roundsTo_scaleTo {m Y n a b : Nat} {e : Int} (hn : 0 < n) (hm : m ≠ 0)
    (h : RoundedToOdd m Y n) (he : e = (a : Int) - b - 149) :
    ∃ j : Nat, lastPlace m e = (j : Int) - 149 ∧
      RoundsTo (n * 2 ^ b) (Y * 2 ^ a) j (scaleTo m e (lastPlace m e)) := by
  have hlog : 2 ^ m.log2 ≤ m ∧ m < 2 ^ (m.log2 + 1) := ⟨Nat.log2_self_le hm, Nat.lt_log2_self⟩
  have hbits : 2 ^ 25 ≤ m → 25 ≤ m.log2 := (Nat.le_log2 hm).2
  obtain ⟨j, hj⟩ : ∃ j : Nat, lastPlace m e = (j : Int) - 149 :=
    ⟨(lastPlace m e + 149).toNat, by unfold lastPlace; omega⟩
  have hplace := hj
  unfold lastPlace at hplace
  generalize m.log2 = l at *
  refine ⟨j, hj, ⟨?_, ?_, ?_⟩⟩
  · rw [hj, scaleTo]
    split
    case isTrue hle =>
      obtain ⟨d, hd⟩ : ∃ d : Nat, e = (j : Int) - 149 + d := ⟨(e - (j - 149)).toNat, by omega⟩
      have ha : a = d + j + b := by omega
      have hY : m * n = Y := h.resolve_right fun ⟨hm25, _⟩ => by have := hbits hm25; omega
      have hval : Y * 2 ^ a = m * 2 ^ (e - ((j : Int) - 149)).toNat * (2 ^ j * (n * 2 ^ b)) := by
        rw [ha, ← hY, show (e - ((j : Int) - 149)).toNat = d by omega]
        ring
      rw [hval]
      exact isRne_self _ (by positivity)
    case isFalse hlt =>
      obtain ⟨k, hk⟩ : ∃ k : Nat, (j : Int) - 149 - e = k := ⟨_, (Int.toNat_of_nonneg (by omega)).symm⟩
      have hP : 2 ^ j * (n * 2 ^ b) = 2 ^ k * n * 2 ^ a := by
        have hexp : (2 : Nat) ^ j * 2 ^ b = 2 ^ k * 2 ^ a := by
          rw [← pow_add, ← pow_add, show j + b = k + a by omega]
        calc 2 ^ j * (n * 2 ^ b) = n * (2 ^ j * 2 ^ b) := by ring
          _ = 2 ^ k * n * 2 ^ a := by rw [hexp]; ring
      rw [hP, hk, Int.toNat_natCast]
      refine (isRne_rneShift_of_roundedToOdd hn h fun hm25 => ?_).scale (Nat.two_pow_pos a)
      have := hbits hm25
      omega
  · refine (Nat.eq_zero_or_pos j).imp_right fun hj0 => ?_
    have hexp : (2 : Nat) ^ 23 * (2 ^ j * 2 ^ b) = 2 ^ l * 2 ^ a := by
      rw [← pow_add, ← pow_add, ← pow_add, show 23 + (j + b) = l + a by omega]
    calc 2 ^ 23 * (2 ^ j * (n * 2 ^ b)) = 2 ^ 23 * (2 ^ j * 2 ^ b) * n := by ring
      _ = 2 ^ l * n * 2 ^ a := by rw [hexp]; ring
      _ ≤ Y * 2 ^ a := Nat.mul_le_mul_right _ (h.pow_mul_le hlog.1)
  · have hexp : (2 : Nat) ^ (l + 1) * 2 ^ a ≤ 2 ^ 24 * (2 ^ j * 2 ^ b) := by
      rw [← pow_add, ← pow_add, ← pow_add]
      exact Nat.pow_le_pow_right (by decide) (by omega)
    calc Y * 2 ^ a < 2 ^ (l + 1) * n * 2 ^ a :=
          Nat.mul_lt_mul_of_pos_right (h.lt_pow_mul hn hlog.2) (Nat.two_pow_pos a)
      _ = 2 ^ (l + 1) * 2 ^ a * n := by ring
      _ ≤ 2 ^ 24 * (2 ^ j * 2 ^ b) * n := Nat.mul_le_mul_right n hexp
      _ = 2 ^ 24 * (2 ^ j * (n * 2 ^ b)) := by ring

/-! ### The packed pattern -/

/-- The pattern of `N` steps of `2 ^ j` units: the exponent field counts the steps' size, and a significand
that reaches 2^24 carries into it. -/
def packed (neg : Bool) (j N : Nat) : Word := withSign neg (min (j * 2 ^ 23 + N) 0x7F800000)

theorem RoundsTo.zero {K : Nat} (hK : 0 < K) : RoundsTo K 0 0 0 := by
  exact ⟨by simpa using isRne_self 0 hK, .inl rfl, by omega⟩

/-- What the model's rounding gives is the packed pattern of the value rounded at its last place. -/
theorem roundPack_eq_packed (neg : Bool) {m Y n a b : Nat} {e : Int} (hn : 0 < n)
    (h : RoundedToOdd m Y n) (he : e = (a : Int) - b - 149) :
    ∃ j N, RoundsTo (n * 2 ^ b) (Y * 2 ^ a) j N ∧ roundPack neg m e = packed neg j N := by
  have hK : 0 < n * 2 ^ b := by positivity
  by_cases hm : m = 0
  · have hY : Y = 0 := by
      subst hm
      rcases h with h | ⟨h, _⟩ <;> omega
    subst hY
    refine ⟨0, 0, ?_, ?_⟩
    · simpa using RoundsTo.zero hK
    · rw [roundPack, if_pos hm]
      rfl
  · obtain ⟨j, hj, hr⟩ := roundsTo_scaleTo hn hm h he
    refine ⟨j, _, hr, ?_⟩
    have hnormal := hr.normal hK
    rw [roundPack, if_neg hm, roundMag, packMag, packed]
    congr 2
    split <;> omega

section Pack
variable {j N : Nat} (neg : Bool)

theorem signBit_packed : signBit (packed neg j N) = neg :=
  signBit_withSign neg (by omega)

/-- Below infinity the packed pattern is finite, its value is `N` steps, and its fraction is even
when `N` is. -/
theorem packed_finite (hN : N ≤ 2 ^ 24) (hnormal : j = 0 ∨ 2 ^ 23 ≤ N)
    (hlt : j * 2 ^ 23 + N < 0x7F800000) :
    isFinite (packed neg j N) = true ∧ unitsOf (packed neg j N) = signed neg ((N * 2 ^ j : Nat) : Int) ∧
    fracField (packed neg j N) % 2 = N % 2 := by
  have hmag : j * 2 ^ 23 + N < 2 ^ 31 := by omega
  rw [packed, Nat.min_eq_left hlt.le, isFinite_iff, unitsOf, unpack, expField_withSign neg hmag,
    fracField_withSign neg hmag, signBit_withSign neg hmag]
  refine ⟨by omega, ?_, by omega⟩
  rw [if_neg (by omega)]
  split_ifs with hexp
  · have hj : j = 0 := by omega
    subst hj
    simp only [Nat.zero_mul, Nat.zero_add, pow_zero, Nat.mul_one]
    rw [Nat.mod_eq_of_lt (by omega)]
    simp
  · by_cases hcarry : N = 2 ^ 24
    · subst hcarry
      rw [show (j * 2 ^ 23 + 2 ^ 24) / 2 ^ 23 = j + 2 by omega,
        show (j * 2 ^ 23 + 2 ^ 24) % 2 ^ 23 = 0 by omega]
      dsimp only
      rw [show (((j + 2 : Nat) : Int) - 150 + 149).toNat = j + 1 by omega]
      congr 1
      push_cast
      ring
    · rw [show (j * 2 ^ 23 + N) / 2 ^ 23 = j + 1 by omega,
        show (j * 2 ^ 23 + N) % 2 ^ 23 = N - 2 ^ 23 by omega]
      dsimp only
      rw [show (((j + 1 : Nat) : Int) - 150 + 149).toNat = j by omega,
        show 2 ^ 23 + (N - 2 ^ 23) = N by omega]
      push_cast
      rfl

theorem packed_overflow (h : 0x7F800000 ≤ j * 2 ^ 23 + N) :
    packed neg j N = if neg then 0xFF800000 else 0x7F800000 := by
  rw [packed, Nat.min_eq_right h]
  cases neg <;> rfl

end Pack

/-! ### Overflow -/

/-- The last place of the largest finite binary32 is `2 ^ 253` units, so a value packs to a finite pattern
exactly when it is less than half of one past it. -/
theorem RoundsTo.packed_lt_iff {K X j N : Nat} (hK : 0 < K) (h : RoundsTo K X j N) :
    j * 2 ^ 23 + N < 0x7F800000 ↔ 2 * X < (2 ^ 25 - 1) * 2 ^ 253 * K := by
  have hN := h.le
  have hnormal := h.normal hK
  obtain ⟨⟨hlow, hhigh, htie⟩, hlower, hupper⟩ := h
  have hstep : (2 : Nat) ^ 253 * K = 2 * (2 ^ 252 * K) := by ring
  have hlimit : (2 ^ 25 - 1) * 2 ^ 253 * K = (2 ^ 25 - 1) * (2 ^ 253 * K) := by ring
  rw [hlimit]
  rcases Nat.lt_trichotomy j 253 with hj | rfl | hj
  · have : 2 ^ j * K ≤ 2 ^ 252 * K :=
      Nat.mul_le_mul_right K (Nat.pow_le_pow_right (by decide) (by omega))
    have : 0 < 2 ^ 252 * K := by positivity
    generalize 2 ^ 252 * K = U at *
    generalize 2 ^ 253 * K = V at *
    omega
  · have hpos : 0 < 2 ^ 253 * K := by positivity
    generalize 2 ^ 253 * K = V at *
    constructor
    · intro hlt
      have hNV : N * V ≤ (2 ^ 24 - 1) * V := Nat.mul_le_mul_right V (by omega)
      by_contra hge
      have heq : 2 * X = 2 * (N * V) + V := by omega
      have hodd := htie (.inr heq)
      have hNV : N * V ≤ (2 ^ 24 - 2) * V := Nat.mul_le_mul_right V (by omega)
      omega
    · intro hlt
      by_contra hge
      have hcarry : N = 2 ^ 24 := by omega
      subst hcarry
      omega
  · have : 2 ^ 254 * K ≤ 2 ^ j * K :=
      Nat.mul_le_mul_right K (Nat.pow_le_pow_right (by decide) (by omega))
    have hdouble : (2 : Nat) ^ 254 * K = 2 * (2 ^ 253 * K) := by ring
    have : 0 < 2 ^ 252 * K := by positivity
    generalize 2 ^ 253 * K = V at *
    generalize 2 ^ 254 * K = W at *
    omega

/-! ### Nearest -/

/-- Every finite value is a whole number of steps of `2 ^ j` units, or it has less than 24 bits of them. -/
theorem unitsOf_dvd_or_lt (j : Nat) {c : Word} (hc : isFinite c = true) :
    (2 ^ j : Int) ∣ unitsOf c ∨ |unitsOf c| < 2 ^ 23 * 2 ^ j := by
  obtain ⟨m, a, -, hm, -, hu⟩ := exists_unpack_of_isFinite hc
  rw [hu, abs_signed]
  rcases le_or_gt j a with hja | haj
  · refine .inl ?_
    have hdvd : (2 ^ j : Int) ∣ ((m * 2 ^ a : Nat) : Int) := by
      push_cast
      exact Dvd.dvd.mul_left (pow_dvd_pow 2 hja) _
    cases signBit c
    · simpa [signed] using hdvd
    · simpa [signed] using hdvd
  · refine .inr ?_
    obtain ⟨d, rfl⟩ : ∃ d, j = a + 1 + d := ⟨j - (a + 1), by omega⟩
    rw [Nat.abs_cast]
    have : m * 2 ^ a < 2 ^ 23 * 2 ^ (a + 1 + d) := by
      calc m * 2 ^ a < 2 ^ 24 * 2 ^ a := Nat.mul_lt_mul_of_pos_right hm (Nat.two_pow_pos a)
        _ ≤ 2 ^ 23 * 2 ^ (a + 1 + d) := by
          rw [← pow_add, ← pow_add]
          exact Nat.pow_le_pow_right (by decide) (by omega)
    exact_mod_cast this

/-- On a grid of step `P` the rounded value is the nearest, and an odd one is nearer than every other. -/
theorem nearest_of_isRne {N P X : Nat} (h : IsRne N P X) (M : Int) :
    |(N : Int) * P - X| ≤ |M * P - X| ∧
    (|(N : Int) * P - X| = |M * P - X| → M = N ∨ N % 2 = 0) := by
  obtain ⟨hlow, hhigh, htie⟩ := h
  have hhalf : 2 * |(N : Int) * P - X| ≤ P := by
    have : -(P : Int) ≤ 2 * ((N : Int) * P - X) ∧ 2 * ((N : Int) * P - X) ≤ P := by
      zify at hlow hhigh
      constructor <;> linarith
    rw [← abs_two, ← abs_mul, abs_le]
    exact this
  rcases eq_or_ne M N with rfl | hne
  · exact ⟨le_rfl, fun _ => .inl rfl⟩
  have hstep : (P : Int) ≤ |M * P - N * P| := by
    rw [← sub_mul, abs_mul, Nat.abs_cast]
    exact le_mul_of_one_le_left (by positivity) (Int.one_le_abs (sub_ne_zero.2 hne))
  have htri : |M * P - N * P| ≤ |M * P - X| + |(N : Int) * P - X| := by
    rw [abs_sub_comm ((N : Int) * P)]
    exact abs_sub_le _ _ _
  refine ⟨by linarith, fun heq => .inr (htie ?_)⟩
  have hfull : 2 * |(N : Int) * P - X| = P := by linarith
  rcases abs_cases ((N : Int) * P - X) with ⟨habs, _⟩ | ⟨habs, _⟩
  · exact .inl (by zify; linarith)
  · exact .inr (by zify; linarith)

/-- Of the values a binary32 can have, the rounded one is nearest to `X / K` (R110). -/
theorem RoundsTo.nearest {K X j N : Nat} (hK : 0 < K) (h : RoundsTo K X j N) {c : Int}
    (hc : (2 ^ j : Int) ∣ c ∨ |c| < 2 ^ 23 * 2 ^ j) :
    |((N * 2 ^ j : Nat) : Int) * K - X| ≤ |c * K - X| ∧
    (|((N * 2 ^ j : Nat) : Int) * K - X| = |c * K - X| →
      c = ((N * 2 ^ j : Nat) : Int) ∨ N % 2 = 0) := by
  have hgrid (M : Int) : M * 2 ^ j * K = M * ((2 ^ j * K : Nat) : Int) := by push_cast; ring
  have hcast : ((N * 2 ^ j : Nat) : Int) = (N : Int) * 2 ^ j := by push_cast; rfl
  rw [hcast, hgrid]
  by_cases hdvd : (2 ^ j : Int) ∣ c
  · obtain ⟨M, rfl⟩ := hdvd
    rw [mul_comm ((2 : Int) ^ j) M, hgrid]
    obtain ⟨hle, htie⟩ := nearest_of_isRne h.rne M
    exact ⟨hle, fun heq => (htie heq).imp_left fun hM => by rw [hM]⟩
  · have hsmall : |c| < 2 ^ 23 * 2 ^ j := hc.resolve_left hdvd
    have hj : j ≠ 0 := fun hj => hdvd (by simp [hj])
    have hX : (2 ^ 23 : Int) * ((2 ^ j * K : Nat) : Int) ≤ X := by
      exact_mod_cast h.lower.resolve_left hj
    have hcK : c * K < 2 ^ 23 * ((2 ^ j * K : Nat) : Int) := by
      rw [← hgrid]
      exact mul_lt_mul_of_pos_right ((le_abs_self c).trans_lt hsmall) (by exact_mod_cast hK)
    have hlt : |(N : Int) * ((2 ^ j * K : Nat) : Int) - X| < |c * K - X| := by
      calc |(N : Int) * ((2 ^ j * K : Nat) : Int) - X|
          ≤ |2 ^ 23 * ((2 ^ j * K : Nat) : Int) - X| := (nearest_of_isRne h.rne (2 ^ 23)).1
        _ = X - 2 ^ 23 * ((2 ^ j * K : Nat) : Int) := by rw [abs_of_nonpos (by linarith)]; ring
        _ < X - c * K := by linarith
        _ = |c * K - X| := by rw [abs_of_nonpos (by linarith)]; ring
    exact ⟨hlt.le, fun heq => absurd heq hlt.ne⟩

/-- The error of a value `u` for a quotient of signed magnitudes is that of `u`, with the quotient's sign
taken off, for the quotient of the magnitudes. -/
theorem abs_error_signed (s t : Bool) (u K X : Int) :
    |u * signed t K - signed s X| = |signed (s ^^ t) u * K - X| := by
  rw [← abs_signed s (signed (s ^^ t) u * K - X), signed_sub, signed_mul]
  cases s <;> cases t <;> simp [signed]

theorem signed_signed (s : Bool) (x : Int) : signed s (signed s x) = x := by
  cases s <;> simp [signed]

/-- The packed pattern of a value rounded at its last place is correctly rounded (R110). -/
theorem RoundsTo.correctlyRounded {K X j N : Nat} (hK : 0 < K) (h : RoundsTo K X j N) (s t : Bool) :
    correctlyRounded (packed (s ^^ t) j N) (signed t K) (signed s X) (s ^^ t) := by
  have hrange : inFloatRange (signed t K) (signed s X) ↔ j * 2 ^ 23 + N < 0x7F800000 := by
    rw [h.packed_lt_iff hK, inFloatRange, abs_signed, abs_signed, Nat.abs_cast, Nat.abs_cast]
    omega
  refine ⟨fun hin => ?_, fun hout => ?_, signBit_packed _⟩
  · obtain ⟨hfin, hunits, hfrac⟩ := packed_finite (s ^^ t) h.le (h.normal hK) (hrange.1 hin)
    refine ⟨hfin, fun c hc => ?_⟩
    rw [hunits, hfrac, abs_error_signed, abs_error_signed, signed_signed]
    have hgrid : (2 ^ j : Int) ∣ signed (s ^^ t) (unitsOf c) ∨
        |signed (s ^^ t) (unitsOf c)| < 2 ^ 23 * 2 ^ j := by
      rw [abs_signed]
      refine (unitsOf_dvd_or_lt j hc).imp_left fun hdvd => ?_
      cases s ^^ t <;> simpa [signed] using hdvd
    obtain ⟨hle, htie⟩ := h.nearest hK hgrid
    refine ⟨hle, fun heq => (htie heq).imp_left fun hval => ?_⟩
    rw [← hval, signed_signed]
  · exact packed_overflow _ (by rw [hrange] at hout; omega)

/-- One rounding by the model, of a value of which `m` units of `2 ^ e` are exact or rounded to odd, is
correct (R110). -/
theorem correctlyRounded_roundPack (s t : Bool) {m Y n a b : Nat} {e : Int} (hn : 0 < n)
    (h : RoundedToOdd m Y n) (he : e = (a : Int) - b - 149) :
    correctlyRounded (roundPack (s ^^ t) m e) (signed t ((n * 2 ^ b : Nat) : Int))
      (signed s ((Y * 2 ^ a : Nat) : Int)) (s ^^ t) := by
  obtain ⟨j, N, hr, hpack⟩ := roundPack_eq_packed (s ^^ t) hn h he
  rw [hpack]
  exact hr.correctlyRounded (by positivity) s t

/-! ### Exact values -/

/-- A value that some finite binary32 has is not changed by rounding. -/
theorem nearestFloat.exact {r c : Word} {k x : Int} (h : nearestFloat r k x) (hc : isFinite c = true)
    (hx : unitsOf c * k = x) : unitsOf r * k = x := by
  have hle := (h.2 c hc).1
  rw [hx, sub_self, abs_zero, abs_nonpos_iff] at hle
  exact sub_eq_zero.1 hle

end Sys2Proof.Machine
end

section
/-! The four operations on finite operands are rounded correctly (R110), what they give on NaN, infinities and
zero divisors, and the exact results on the integers and pixel centres of the rasterizer (R113). -/

namespace Sys2Proof.Machine

/-! ### Finite operands -/

/-- The exact sum in units, from the operands brought to a common exponent. -/
theorem addFinite_units (s t : Bool) (m n a c : Nat) :
    signed s ((m * 2 ^ a : Nat) : Int) + signed t ((n * 2 ^ c : Nat) : Int) =
      (signed s (m * 2 ^ (a - min a c)) + signed t (n * 2 ^ (c - min a c))) * 2 ^ min a c := by
  have hsplit (m a : Nat) (h : min a c ≤ a) :
      ((m * 2 ^ a : Nat) : Int) = m * 2 ^ (a - min a c) * 2 ^ min a c := by
    push_cast
    rw [mul_assoc, ← pow_add, Nat.sub_add_cancel h]
  rw [add_mul, ← signed_mul, ← signed_mul, ← hsplit m a (Nat.min_le_left a c)]
  congr 2
  push_cast
  rw [mul_assoc, ← pow_add, Nat.sub_add_cancel (Nat.min_le_right a c)]

theorem addFinite_correctlyRounded (s t : Bool) (m n a c : Nat) {U : Int}
    (hU : U = signed s ((m * 2 ^ a : Nat) : Int) + signed t ((n * 2 ^ c : Nat) : Int)) :
    correctlyRounded (addFinite s m ((a : Int) - 149) t n ((c : Int) - 149)) 1 U
      (if U = 0 then s && t else decide (U < 0)) := by
  rw [addFinite_units] at hU
  have hg : min ((a : Int) - 149) ((c : Int) - 149) = ((min a c : Nat) : Int) - 149 := by omega
  have ha : ((a : Int) - 149 - (((min a c : Nat) : Int) - 149)).toNat = a - min a c := by omega
  have hc : ((c : Int) - 149 - (((min a c : Nat) : Int) - 149)).toNat = c - min a c := by omega
  unfold addFinite
  dsimp only
  rw [hg, ha, hc]
  generalize signed s (m * 2 ^ (a - min a c)) + signed t (n * 2 ^ (c - min a c)) = x at *
  have hpow : (0 : Int) < 2 ^ min a c := by positivity
  have hround (neg : Bool) : correctlyRounded (roundPack neg x.natAbs (((min a c : Nat) : Int) - 149)) 1
      (signed neg ((x.natAbs * 2 ^ min a c : Nat) : Int)) neg := by
    have h := correctlyRounded_roundPack (m := x.natAbs) (a := min a c) (b := 0)
      (e := ((min a c : Nat) : Int) - 149) neg false Nat.one_pos (.inl (mul_one _)) (by omega)
    simpa [signed] using h
  by_cases hx : x = 0
  · subst hx
    simpa [hU, roundPack] using hround (s && t)
  · have hU0 : U ≠ 0 := by
      rw [hU]
      exact mul_ne_zero hx hpow.ne'
    have hneg : decide (U < 0) = decide (x < 0) := by
      rw [hU, decide_eq_decide]
      simpa using mul_lt_mul_iff_of_pos_right (b := x) (c := 0) hpow
    have hval : signed (decide (x < 0)) ((x.natAbs * 2 ^ min a c : Nat) : Int) = U := by
      rw [Nat.cast_mul, signed_mul, signed_natAbs, hU]
      push_cast
      rfl
    rw [if_neg hx, if_neg hU0, hneg]
    simpa only [hval] using hround (decide (x < 0))

theorem fadd_correctlyRounded {a b : Word} (ha : isFinite a = true) (hb : isFinite b = true) :
    correctlyRounded (fadd a b) 1 (unitsOf a + unitsOf b)
      (if unitsOf a + unitsOf b = 0 then signBit a && signBit b
        else decide (unitsOf a + unitsOf b < 0)) := by
  obtain ⟨m, p, hm, -, -, hua⟩ := exists_unpack_of_isFinite ha
  obtain ⟨n, q, hn, -, -, hub⟩ := exists_unpack_of_isFinite hb
  rw [fadd, hm, hn]
  exact addFinite_correctlyRounded _ _ m n p q (by rw [hua, hub])

theorem fmul_correctlyRounded {a b : Word} (ha : isFinite a = true) (hb : isFinite b = true) :
    correctlyRounded (fmul a b) (2 ^ 149) (unitsOf a * unitsOf b) (signBit a ^^ signBit b) := by
  obtain ⟨m, p, hm, -, -, hua⟩ := exists_unpack_of_isFinite ha
  obtain ⟨n, q, hn, -, -, hub⟩ := exists_unpack_of_isFinite hb
  rw [fmul, hm, hn, hua, hub, signed_mul_signed]
  have h := correctlyRounded_roundPack (m := m * n) (a := p + q) (b := 149) (signBit a ^^ signBit b) false
    (e := (p : Int) - 149 + (q - 149)) Nat.one_pos (.inl (mul_one _)) (by omega)
  rw [Bool.xor_false] at h
  have hval : ((m * 2 ^ p : Nat) : Int) * ((n * 2 ^ q : Nat) : Int) =
      ((m * n * 2 ^ (p + q) : Nat) : Int) := by
    push_cast
    ring
  rw [hval]
  simpa [signed] using h

/-- The model's quotient with its last bit is the exact one rounded to odd (R110). -/
theorem roundedToOdd_quotient {m n : Nat} (hn : n ≠ 0) (hn24 : n < 2 ^ 24) :
    RoundedToOdd (2 * (m * 2 ^ 60 / n) + if m * 2 ^ 60 % n = 0 then 0 else 1) (m * 2 ^ 61) n := by
  have hdiv := Nat.div_add_mod (m * 2 ^ 60) n
  have hmod := Nat.mod_lt (m * 2 ^ 60) (Nat.pos_of_ne_zero hn)
  have hY : m * 2 ^ 61 = 2 * (m * 2 ^ 60) := by ring
  by_cases hr : m * 2 ^ 60 % n = 0
  · rw [if_pos hr]
    left
    rw [hr] at hdiv
    calc (2 * (m * 2 ^ 60 / n) + 0) * n = 2 * (n * (m * 2 ^ 60 / n) + 0) := by ring
      _ = m * 2 ^ 61 := by rw [hdiv, hY]
  · rw [if_neg hr]
    right
    have hm : m ≠ 0 := by
      rintro rfl
      simp at hr
    have hbits : 2 ^ 24 ≤ m * 2 ^ 60 / n := by
      rw [Nat.le_div_iff_mul_le (Nat.pos_of_ne_zero hn)]
      omega
    have hQ : (2 * (m * 2 ^ 60 / n) + 1) * n = 2 * (n * (m * 2 ^ 60 / n)) + n := by ring
    rw [hQ, hY]
    omega

theorem fdiv_correctlyRounded {a b : Word} (ha : isFinite a = true) (hb : isFinite b = true)
    (hb0 : unitsOf b ≠ 0) :
    correctlyRounded (fdiv a b) (unitsOf b) (unitsOf a * 2 ^ 149) (signBit a ^^ signBit b) := by
  obtain ⟨m, p, hm, -, -, hua⟩ := exists_unpack_of_isFinite ha
  obtain ⟨n, q, hn, hn24, -, hub⟩ := exists_unpack_of_isFinite hb
  have hn0 : n ≠ 0 := by
    rintro rfl
    simp [hub] at hb0
  rw [fdiv, hm, hn]
  dsimp only
  rw [if_neg hn0, hua, hub, divFinite]
  have h := correctlyRounded_roundPack (a := p + 88) (b := q) (signBit a) (signBit b)
    (e := (p : Int) - 149 - (q - 149) - 61) (Nat.pos_of_ne_zero hn0) (roundedToOdd_quotient (m := m) hn0 hn24)
    (by omega)
  have hval : ((m * 2 ^ 61 * 2 ^ (p + 88) : Nat) : Int) = ((m * 2 ^ p : Nat) : Int) * 2 ^ 149 := by
    push_cast
    ring
  rwa [hval, signed_mul] at h

/-! ### Exact small values -/

/-- The pattern is finite and its exact value is `z / 2`. -/
def HasHalves (w : Word) (z : Nat) : Prop := isFinite w = true ∧ unitsOf w = z * 2 ^ 148

/-- A significand below 2^24 can be shifted up until it fills 24 bits or its step is the smallest. -/
theorem exists_normal_steps (a : Nat) {m : Nat} (hm : m < 2 ^ 24) :
    ∃ j N, j ≤ a ∧ N < 2 ^ 24 ∧ (j = 0 ∨ 2 ^ 23 ≤ N) ∧ N * 2 ^ j = m * 2 ^ a := by
  induction a generalizing m with
  | zero => exact ⟨0, m, le_rfl, hm, .inl rfl, rfl⟩
  | succ a ih =>
    by_cases hfull : 2 ^ 23 ≤ m
    · exact ⟨a + 1, m, le_rfl, hm, .inr hfull, rfl⟩
    · obtain ⟨j, N, hj, hN, hnormal, hval⟩ := ih (m := 2 * m) (by omega)
      refine ⟨j, N, by omega, hN, hnormal, ?_⟩
      rw [hval, pow_succ]
      ring

theorem exists_hasHalves {z : Nat} (hz : z < 2 ^ 24) : ∃ c, HasHalves c z := by
  obtain ⟨j, N, hj, hN, hnormal, hval⟩ := exists_normal_steps 148 hz
  obtain ⟨hfin, hunits, -⟩ := packed_finite false hN.le hnormal (by omega)
  refine ⟨_, hfin, ?_⟩
  rw [hunits, hval]
  simp [signed]

/-- Rounding does not change a value of few enough halves. -/
theorem correctlyRounded.hasHalves {r : Word} {k x : Int} {neg : Bool} (h : correctlyRounded r k x neg)
    (hk : 0 < k) {z : Nat} (hz : z < 2 ^ 24) (hx : (z * 2 ^ 148 : Int) * k = x) : HasHalves r z := by
  obtain ⟨hnear, -, -⟩ := h
  have hrange : inFloatRange k x := by
    have hz24 : (z : Int) ≤ 2 ^ 24 := by omega
    have : (z * 2 ^ 148 : Int) * k ≤ 2 ^ 24 * 2 ^ 148 * k := by gcongr
    have hx0 : 0 ≤ x := hx ▸ mul_nonneg (by positivity) hk.le
    rw [inFloatRange, abs_of_nonneg hx0, abs_of_pos hk, ← hx]
    linarith
  obtain ⟨c, hc, hunits⟩ := exists_hasHalves hz
  refine ⟨(hnear hrange).1, ?_⟩
  have hexact := (hnear hrange).exact hc (by rw [hunits, hx])
  rw [← hx] at hexact
  exact mul_right_cancel₀ hk.ne' hexact

theorem hasHalves_i2f {n : Nat} (hn : n ≤ 65535) : HasHalves (i2f n) (2 * n) := by
  have h := correctlyRounded_roundPack (m := n) (a := 149) (b := 0) (e := 0) false false
    Nat.one_pos (.inl (mul_one _)) (by decide)
  refine h.hasHalves (by decide) (by omega) ?_
  simp only [signed]
  push_cast
  ring

theorem HasHalves.fadd {a b : Word} {y z : Nat} (ha : HasHalves a y) (hb : HasHalves b z)
    (h : y + z < 2 ^ 24) : HasHalves (fadd a b) (y + z) := by
  obtain ⟨hfa, hua⟩ := ha
  obtain ⟨hfb, hub⟩ := hb
  refine (fadd_correctlyRounded hfa hfb).hasHalves Int.one_pos h ?_
  rw [hua, hub]
  push_cast
  ring

/-- A product is exact in the units of both operands. -/
theorem HasHalves.fmul {a b : Word} {x y z : Nat} (ha : HasHalves a x) (hb : HasHalves b y)
    (h : x * y = 2 * z) (hz : z < 2 ^ 24) : HasHalves (fmul a b) z := by
  obtain ⟨hfa, hua⟩ := ha
  obtain ⟨hfb, hub⟩ := hb
  refine (fmul_correctlyRounded hfa hfb).hasHalves (by positivity) hz ?_
  have hxy : (x * y : Int) = 2 * z := by exact_mod_cast h
  rw [hua, hub]
  calc (z * 2 ^ 148 * 2 ^ 149 : Int) = (2 * z * (2 ^ 148 * 2 ^ 148) : Int) := by ring
    _ = (x * 2 ^ 148 * (y * 2 ^ 148) : Int) := by rw [← hxy]; ring

theorem hasHalves_half : HasHalves half 1 := by unfold HasHalves; decide

theorem hasHalves_one : HasHalves 0x3F800000 2 := by unfold HasHalves; decide

theorem hasHalves_zero {w : Word} (h : w = 0x00000000 ∨ w = 0x80000000) : HasHalves w 0 := by
  rcases h with rfl | rfl
  · unfold HasHalves; decide
  · unfold HasHalves; decide

/-! ### NaN, infinities and zero divisors -/

theorem feq0_of_isInf {w : Word} (h : isInf w = true) : feq0 w = false := by
  obtain ⟨he, -⟩ := (isInf_iff w).1 h
  rw [feq0_false_iff]
  omega

theorem isFinite_of_feq0 {w : Word} (h : feq0 w = true) : isFinite w = true := by
  obtain ⟨he, -⟩ := (feq0_iff w).1 h
  rw [isFinite_iff]
  omega

section Infinite
variable {a b : Word}

theorem fadd_isInf_isInf (ha : isInf a = true) (hb : isInf b = true) :
    fadd a b = if signBit a = signBit b then a else quietNaN := by
  rw [fadd, unpack_of_isInf ha, unpack_of_isInf hb]
  dsimp only
  rw [← eq_infOf_of_isInf ha]

theorem fadd_isInf_left (ha : isInf a = true) (hb : isFinite b = true) : fadd a b = a := by
  obtain ⟨n, q, hn, -⟩ := exists_unpack_of_isFinite hb
  rw [fadd, unpack_of_isInf ha, hn]
  exact (eq_infOf_of_isInf ha).symm

theorem fadd_isInf_right (ha : isInf a = true) (hb : isFinite b = true) : fadd b a = a := by
  obtain ⟨n, q, hn, -⟩ := exists_unpack_of_isFinite hb
  rw [fadd, unpack_of_isInf ha, hn]
  exact (eq_infOf_of_isInf ha).symm

/-- An infinity times a zero is a NaN, and times any other value but a NaN an infinity (R110). -/
theorem fmul_isInf_left (ha : isInf a = true) (hb : isNaN b = false) :
    fmul a b = if feq0 b then quietNaN else infOf (signBit a ^^ signBit b) := by
  rw [fmul, unpack_of_isInf ha]
  rcases pattern_cases b with h | h | h
  · simp [h] at hb
  · rw [unpack_of_isInf h, feq0_of_isInf h]
    rfl
  · obtain ⟨n, q, hn, -, hzero, -⟩ := exists_unpack_of_isFinite h
    rw [hn]
    simp only [hzero]

theorem fmul_isInf_right (ha : isInf a = true) (hb : isNaN b = false) :
    fmul b a = if feq0 b then quietNaN else infOf (signBit a ^^ signBit b) := by
  rw [fmul, unpack_of_isInf ha, Bool.xor_comm]
  rcases pattern_cases b with h | h | h
  · simp [h] at hb
  · rw [unpack_of_isInf h, feq0_of_isInf h]
    rfl
  · obtain ⟨n, q, hn, -, hzero, -⟩ := exists_unpack_of_isFinite h
    rw [hn]
    simp only [hzero]

theorem fdiv_isInf_isInf (ha : isInf a = true) (hb : isInf b = true) : fdiv a b = quietNaN := by
  rw [fdiv, unpack_of_isInf ha, unpack_of_isInf hb]

theorem fdiv_isInf_left (ha : isInf a = true) (hb : isFinite b = true) :
    fdiv a b = infOf (signBit a ^^ signBit b) := by
  obtain ⟨n, q, hn, -⟩ := exists_unpack_of_isFinite hb
  rw [fdiv, unpack_of_isInf ha, hn]

theorem fdiv_isInf_right (ha : isInf a = true) (hb : isFinite b = true) :
    fdiv b a = zeroOf (signBit b ^^ signBit a) := by
  obtain ⟨n, q, hn, -⟩ := exists_unpack_of_isFinite hb
  rw [fdiv, unpack_of_isInf ha, hn]

theorem fdiv_feq0 (ha : isFinite a = true) (hb : feq0 b = true) :
    fdiv a b = if feq0 a then quietNaN else infOf (signBit a ^^ signBit b) := by
  obtain ⟨m, p, hm, -, hzero, -⟩ := exists_unpack_of_isFinite ha
  obtain ⟨n, q, hn, -, hzero', -⟩ := exists_unpack_of_isFinite (isFinite_of_feq0 hb)
  rw [fdiv, hm, hn]
  dsimp only
  rw [if_pos (hzero'.1 hb)]
  simp only [hzero]

/-- Two infinities differ when their signs do. -/
theorem signBit_ne_of_isInf (ha : isInf a = true) (hb : isInf b = true) (h : a ≠ b) :
    signBit a ≠ signBit b := fun hs =>
  h (by rw [eq_infOf_of_isInf ha, eq_infOf_of_isInf hb, hs])

end Infinite

theorem isNaN_ops {a b : Word} (h : isNaN a = true ∨ isNaN b = true) : isNaN (fadd a b) = true ∧
    isNaN (fsub a b) = true ∧ isNaN (fmul a b) = true ∧ isNaN (fdiv a b) = true := by
  rcases h with h | h
  · exact ⟨fadd_nan_left a b h, fadd_nan_left a _ h, fmul_nan_left a b h, fdiv_nan_left a b h⟩
  · exact ⟨fadd_nan_right a b h, fadd_nan_right a _ (by simpa using h), fmul_nan_right a b h,
      fdiv_nan_right a b h⟩

/-! ### The obligations about floats -/

/-- Settles O27: both operands are brought to the smaller exponent, and the exact sum is rounded once. -/
theorem additionIsCorrectlyRounded : Obligations.AdditionIsCorrectlyRounded :=
  fun _ _ ha hb => fadd_correctlyRounded ha hb

/-- Settles O28: the difference is the sum with the second operand negated, whose value and sign turn. -/
theorem subtractionIsCorrectlyRounded : Obligations.SubtractionIsCorrectlyRounded := by
  intro a b ha hb
  have h := fadd_correctlyRounded ha ((isFinite_fneg b).trans hb)
  rwa [unitsOf_fneg, signBit_fneg, ← sub_eq_add_neg] at h

/-- Settles O29: the product of the significands is exact, and is rounded once. -/
theorem multiplicationIsCorrectlyRounded : Obligations.MultiplicationIsCorrectlyRounded :=
  fun _ _ ha hb => fmul_correctlyRounded ha hb

/-- Settles O30: the quotient is rounded to odd with bits to spare, and then rounded once. -/
theorem divisionIsCorrectlyRounded : Obligations.DivisionIsCorrectlyRounded :=
  fun _ _ ha hb hb0 => fdiv_correctlyRounded ha hb hb0

/-- Settles O26: the integer and the centre have 17 bits, so rounding leaves them as they are. -/
theorem smallIntegersAndCentresAreExact : Obligations.SmallIntegersAndCentresAreExact := by
  intro n hn
  obtain ⟨hfin, hunits⟩ := hasHalves_i2f hn
  obtain ⟨hfinC, hunitsC⟩ := (hasHalves_i2f hn).fadd hasHalves_half (by omega)
  refine ⟨hfin, ?_, hfinC, ?_⟩
  · rw [ieee_eq, binary32Record_i2f, hunits]
    push_cast
    ring
  · refine hunitsC.trans ?_
    push_cast
    ring

/-- Settles O25: the cases of NaN, infinite and zero operands, each by its own lemma. -/
theorem floatSpecialCases : Obligations.FloatSpecialCases := by
  refine ⟨fun a b h => isNaN_ops h, fun a b ha hb => ?_, fun a b ha hb => ?_, fun a b ha hb => ?_,
    fun a z ha ha0 hz => ?_, fun y z hy hz => ?_⟩
  · have hbn : isFinite (fneg b) = true := (isFinite_fneg b).trans hb
    have han : isInf (fneg a) = true := (isInf_fneg a).trans ha
    refine ⟨fadd_isInf_left ha hb, fadd_isInf_right ha hb, fadd_isInf_left ha hbn,
      fadd_isInf_right han hb, ?_, ?_⟩
    · exact (fdiv_isInf_left ha hb).trans (infOf_xor _ _)
    · exact (fdiv_isInf_right ha hb).trans (by rw [Bool.xor_comm, zeroOf_xor])
  · have hbn : isInf (fneg b) = true := (isInf_fneg b).trans hb
    have hadd := fadd_isInf_isInf ha hb
    have hsub := fadd_isInf_isInf ha hbn
    rw [signBit_fneg] at hsub
    refine ⟨fun hab => ?_, fun hab => ?_, ?_⟩
    · rw [← hab, if_pos rfl] at hadd
      rw [← hab, if_neg (by simp)] at hsub
      rw [← hab]
      exact ⟨hadd, (congrArg isNaN hsub).trans isNaN_quietNaN⟩
    · have hsign := signBit_ne_of_isInf ha hb hab
      rw [if_neg hsign] at hadd
      rw [if_pos (Bool.eq_not.2 hsign)] at hsub
      exact ⟨(congrArg isNaN hadd).trans isNaN_quietNaN, hsub⟩
    · exact (congrArg isNaN (fdiv_isInf_isInf ha hb)).trans isNaN_quietNaN
  · have hleft := fmul_isInf_left ha hb
    have hright := fmul_isInf_right ha hb
    refine ⟨fun hb0 => ?_, fun hb0 => ?_⟩
    · rw [show feq0 b = true from hb0, if_pos rfl] at hleft hright
      exact ⟨(congrArg isNaN hleft).trans isNaN_quietNaN, (congrArg isNaN hright).trans isNaN_quietNaN⟩
    · rw [show feq0 b = false from hb0, if_neg Bool.false_ne_true, infOf_xor] at hleft hright
      exact ⟨hleft, hright⟩
  · refine (fdiv_feq0 ha hz).trans ?_
    rw [show feq0 a = false from ha0, if_neg Bool.false_ne_true, infOf_xor]
  · refine (congrArg isNaN (fdiv_feq0 (isFinite_of_feq0 hy) hz)).trans ?_
    rw [show feq0 y = true from hy, if_pos rfl, isNaN_quietNaN]

/-- Settles O24: one bit at a time, and the two patterns that the test compares with. -/
theorem negationAndZeroTest : Obligations.NegationAndZeroTest := by
  refine ⟨fun a i hi => fneg_getLsbD a hi, fun a => ?_⟩
  simp [feq0]

end Sys2Proof.Machine
end

section
/-! The shader engine (R116 to R129): the context that `SETCTX` loads, texel indices, and the rows of both
modes. -/

namespace Sys2Proof.Machine

/-! ### SETCTX -/

/-- Outside the fault state a known shader mode leads to `SET_CONTEXT` (R116). -/
theorem exec_setctx_of_known {s : State} (he : s.err = 0) (hs : s.shader.toNat ≤ 1) :
    exec .setctx s = .next (setContext s) := by
  change execSetctx s = _
  rcases execSetctx_cases s with ⟨hf, _⟩ | ⟨_, hgt, _⟩ | ⟨_, _, h⟩
  · simp [inFault, he] at hf
  · omega
  · exact h

theorem exec_setctx_of_unknown {s : State} (he : s.err = 0) (hs : 1 < s.shader.toNat) :
    exec .setctx s = .next (raise .cfg 1 s) := by
  change execSetctx s = _
  rcases execSetctx_cases s with ⟨hf, _⟩ | ⟨_, _, h⟩ | ⟨_, hle, _⟩
  · simp [inFault, he] at hf
  · exact h
  · omega

theorem setContext_colour {s : State} (hs : s.shader.toNat = 0) : setContext s = setCtxOk true s := by
  rcases setContext_cases s with ⟨_, h⟩ | ⟨hne, _⟩ | ⟨hne, _⟩
  · exact h
  · exact absurd hs hne
  · exact absurd hs hne

section Bitmap
variable {s : State} (hs : s.shader.toNat = 1)
include hs

theorem setContext_singular
    (hd : (arith s).feq0 (matDet (arith s) (matMul (arith s) s.ctm s.loc)) = true) :
    setContext s = { s with ctxOk := false } := by
  rcases setContext_cases s with ⟨h0, _⟩ | ⟨_, _, h⟩ | ⟨_, hd', _⟩
  · omega
  · exact h
  · rw [hd] at hd'
    cases hd'

theorem setContext_regular
    (hd : (arith s).feq0 (matDet (arith s) (matMul (arith s) s.ctm s.loc)) = false) :
    setContext s = { s with
      ctxOk := true
      xf := storeAffine s.freeCount (matInv (arith s) (matMul (arith s) s.ctm s.loc))
      freeCount := s.freeCount + 1 } := by
  rcases setContext_cases s with ⟨h0, _⟩ | ⟨_, hd', _⟩ | ⟨_, _, h⟩
  · omega
  · rw [hd] at hd'
    cases hd'
  · exact h

end Bitmap

/-! ### The stored inverse -/

@[simp] theorem affineEntry_storeAffine (serial : Nat) (m : Affine) (k : Fin 6) :
    affineEntry (storeAffine serial m) k = storeFloat (Config.nanBits serial k) (affineEntry m k) := by
  fin_cases k <;> rfl

/-- Every entry of the inverse is a quotient by the determinant (R120). -/
theorem exists_affineEntry_matInv (n : Numerics) (p : Affine) (k : Fin 6) :
    ∃ x, affineEntry (matInv n p) k = n.fdiv x (matDet n p) := by
  fin_cases k <;> exact ⟨_, rfl⟩

theorem isNaN_storeFloat {bits result : Word} (h : isNaN result = true) :
    isNaN (storeFloat bits result) = true := by
  have := storedAs_storeFloat bits result
  rwa [storedAs, if_pos h] at this

theorem storeFloat_of_not_isNaN {bits result : Word} (h : isNaN result = false) :
    storeFloat bits result = result := by
  rw [storeFloat, h]
  rfl

/-- What is no finite value does not test as zero (R112, R121). -/
theorem feq0_of_not_isFinite {w : Word} (h : isFinite w = false) : feq0 w = false := by
  by_contra h0
  rw [isFinite_of_feq0 (by simpa using h0)] at h
  cases h

theorem isFinite_of_isNaN {w : Word} (h : isNaN w = true) : isFinite w = false := by
  obtain ⟨he, -⟩ := (isNaN_iff w).1 h
  simp [isFinite, he]

theorem isFinite_of_isInf {w : Word} (h : isInf w = true) : isFinite w = false := by
  obtain ⟨he, -⟩ := (isInf_iff w).1 h
  simp [isFinite, he]

/-- A quotient by an infinity is a zero or a NaN (R110). -/
theorem fdiv_isInf_cases {d : Word} (x : Word) (hd : isInf d = true) :
    isNaN (fdiv x d) = true ∨ ∃ s, fdiv x d = zeroOf s := by
  rcases pattern_cases x with h | h | h
  · exact .inl (fdiv_nan_left x d h)
  · exact .inl ((congrArg isNaN (fdiv_isInf_isInf h hd)).trans isNaN_quietNaN)
  · exact .inr ⟨_, fdiv_isInf_right hd h⟩

/-- What a register holds after a quotient by an infinity was stored in it (R29, R121). -/
theorem storeFloat_fdiv_isInf {d : Word} (bits x : Word) (hd : isInf d = true) :
    storeFloat bits (fdiv x d) = 0x00000000 ∨ storeFloat bits (fdiv x d) = 0x80000000 ∨
      isNaN (storeFloat bits (fdiv x d)) = true := by
  rcases fdiv_isInf_cases x hd with h | ⟨s, h⟩
  · exact .inr (.inr (isNaN_storeFloat h))
  · rw [h]
    cases s
    · exact .inl (storeFloat_of_not_isNaN (by decide))
    · exact .inr (.inl (storeFloat_of_not_isNaN (by decide)))

/-- In bitmap mode with the decided record a determinant that is not finite loads quotients by it (R121). -/
theorem exec_setctx_of_not_isFinite {s : State} (he : s.err = 0) (hs : s.shader.toNat = 1)
    (hn : s.params.numerics = .binary32)
    (hd : isFinite (matDet ieee (matMul ieee s.ctm s.loc)) = false) :
    ∃ t, exec .setctx s = .next t ∧ t.ctxOk = true ∧ ∀ k : Fin 6, ∃ bits x,
      readReg t (.xf k) = storeFloat bits (fdiv x (matDet ieee (matMul ieee s.ctm s.loc))) := by
  have harith : arith s = ieee := congrArg numericsOf hn
  refine ⟨_, exec_setctx_of_known he hs.le, ?_⟩
  rw [setContext_regular hs (by rw [harith]; exact feq0_of_not_isFinite hd), harith]
  refine ⟨rfl, fun k => ?_⟩
  obtain ⟨x, hx⟩ := exists_affineEntry_matInv ieee (matMul ieee s.ctm s.loc) k
  refine ⟨Config.nanBits s.freeCount k, x, ?_⟩
  rw [readReg, affineEntry_storeAffine, hx]
  rfl

/-! ### Texel indices -/

theorem clampIndex_eq (k : Int) {n : Nat} :
    (clampIndex k n : Int) = max 0 (min k ((n : Int) - 1)) := by
  unfold clampIndex
  omega

section TexIdx
variable (r : Numerics) (nanIndex n : Nat) {t : Word}

theorem texIdx_isNaN (h : isNaN t = true) : texIdx r nanIndex t n = min nanIndex (n - 1) := by
  rw [texIdx, unpack_of_isNaN h]

theorem texIdx_isInf (h : isInf t = true) :
    texIdx r nanIndex t n = if signBit t then 0 else n - 1 := by
  rw [texIdx, unpack_of_isInf h]
  cases signBit t <;> rfl

theorem texIdx_isFinite (h : isFinite t = true) :
    texIdx r nanIndex t n = clampIndex (r.ffloor t) n := by
  obtain ⟨m, a, hm, -⟩ := exists_unpack_of_isFinite h
  rw [texIdx, hm]

end TexIdx

/-- The floor of a finite pattern is that of its exact value (R127). -/
theorem ffloor_eq_div {t : Word} (h : isFinite t = true) : ffloor t = unitsOf t / 2 ^ 149 := by
  obtain ⟨m, a, hm, -, -, hu⟩ := exists_unpack_of_isFinite h
  rw [ffloor, hm]
  dsimp only
  rw [floorOf, asr_eq_div, hu, Nat.cast_mul, signed_mul, Nat.cast_pow, Nat.cast_ofNat]
  rcases le_total a 149 with ha | ha
  · have hpow : (2 : Int) ^ 149 = 2 ^ (149 - a) * 2 ^ a := by
      rw [← pow_add, Nat.sub_add_cancel ha]
    rw [show ((a : Int) - 149).toNat = 0 by omega, show (-((a : Int) - 149)).toNat = 149 - a by omega,
      hpow, Int.mul_ediv_mul_of_pos_left _ _ (by positivity), pow_zero, mul_one]
  · have hpow : (2 : Int) ^ a = 2 ^ (a - 149) * 2 ^ 149 := by
      rw [← pow_add, Nat.sub_add_cancel ha]
    rw [show ((a : Int) - 149).toNat = a - 149 by omega, show (-((a : Int) - 149)).toNat = 0 by omega,
      hpow, ← mul_assoc, Int.mul_ediv_cancel _ (by positivity), pow_zero, Int.ediv_one]

/-- The texel index of a coordinate of so many halves (R127). -/
theorem texIdx_of_hasHalves {w : Word} {z : Nat} (h : HasHalves w z) (nanIndex : Nat) {n : Nat}
    (hn : 1 ≤ n) : texIdx binary32Record nanIndex w n = min (z / 2) (n - 1) := by
  obtain ⟨hfin, hunits⟩ := h
  have hfloor : ffloor w = ((z / 2 : Nat) : Int) := by
    rw [ffloor_eq_div hfin, hunits]
    omega
  rw [texIdx_isFinite _ _ _ hfin, binary32Record_ffloor, hfloor, clampIndex]
  omega

/-! ### Rows -/

/-- Pixel `i` of a bitmap row is sampled after `i` steps (R128). -/
theorem shadeBitmapFrom_getElem? (s : State) {n i : Nat} (h : i < n) (u v : Word) :
    (shadeBitmapFrom s n u v)[i]? = some (sampleTexel s
      ((fun w => (arith s).fadd w s.xf.a)^[i] u) ((fun w => (arith s).fadd w s.xf.d)^[i] v)) := by
  induction n generalizing i u v with
  | zero => omega
  | succ n ih =>
    cases i with
    | zero => rfl
    | succ i =>
      rw [shadeBitmapFrom, List.getElem?_cons_succ, ih (by omega), Function.iterate_succ_apply,
        Function.iterate_succ_apply]

theorem shadeRow_bitmap {s : State} (hs : s.shader.toNat = 1) (x y n : Nat) :
    shadeRow s x y n = shadeBitmap s x y n :=
  if_neg (by omega)

/-- Stepping by an exact value adds it each time (R128). -/
theorem HasHalves.iterate_fadd {w d : Word} {z c : Nat} (hw : HasHalves w z) (hd : HasHalves d c)
    (i : Nat) (h : z + i * c < 2 ^ 24) : HasHalves ((fun w => Machine.fadd w d)^[i] w) (z + i * c) := by
  induction i with
  | zero => simpa using hw
  | succ i ih =>
    rw [Nat.add_one_mul] at h
    rw [Function.iterate_succ_apply', Nat.add_one_mul, ← Nat.add_assoc]
    exact (ih (by omega)).fadd hd (by omega)

theorem hasHalves_centre {x : Nat} (hx : x ≤ 65535) : HasHalves (centre binary32Record x) (2 * x + 1) :=
  (hasHalves_i2f hx).fadd hasHalves_half (by omega)

/-- Under the identity mapping the start coordinates are the pixel centre (R126). -/
theorem hasHalves_startCoord {c0 c1 c2 fx fy : Word} {p q x y : Nat} (h0 : HasHalves c0 p)
    (h1 : HasHalves c1 q) (h2 : HasHalves c2 0) (hx : HasHalves fx x) (hy : HasHalves fy y)
    {z : Nat} (hz : p * x + q * y = 2 * z) (hpx : 2 ∣ p * x) (hlt : z < 2 ^ 24) :
    HasHalves (startCoord binary32Record c0 c1 c2 fx fy) z := by
  obtain ⟨a, ha⟩ := hpx
  have hsum := ((h0.fmul hx ha (by omega)).fadd (h1.fmul hy (z := z - a) (by omega) (by omega))
    (by omega)).fadd h2 (by omega)
  rwa [show a + (z - a) + 0 = z by omega] at hsum

/-! ### The obligations about the shader engine -/

/-- Settles O33: each register is stored from the entry of the inverse that is its name. -/
theorem setctxBitmapModeLoadsTheInverse : Obligations.SetctxBitmapModeLoadsTheInverse := by
  rintro s n a b c d e f det he hs rfl rfl rfl rfl rfl rfl rfl rfl
  refine ⟨fun hd => ?_, fun hd =>
    ⟨storeAffine s.freeCount (matInv (arith s) (matMul (arith s) s.ctm s.loc)), ?_,
      storedAs_storeFloat _ _, storedAs_storeFloat _ _, storedAs_storeFloat _ _,
      storedAs_storeFloat _ _, storedAs_storeFloat _ _, storedAs_storeFloat _ _⟩⟩
  · rw [exec_setctx_of_known he hs.le, setContext_singular hs hd]
  · rw [exec_setctx_of_known he hs.le, setContext_regular hs hd]

/-- Settles O34: every register takes a quotient by the determinant. -/
theorem nonFiniteDeterminantIsUsable : Obligations.NonFiniteDeterminantIsUsable := by
  intro s he hs hn
  refine ⟨fun hd => ?_, fun hd => ?_⟩
  · obtain ⟨t, ht, hok, hxf⟩ := exec_setctx_of_not_isFinite he hs hn (isFinite_of_isNaN hd)
    refine ⟨t, ht, hok, fun k => ?_⟩
    obtain ⟨bits, x, hk⟩ := hxf k
    rw [hk]
    exact isNaN_storeFloat (fdiv_nan_right x _ hd)
  · obtain ⟨t, ht, hok, hxf⟩ := exec_setctx_of_not_isFinite he hs hn (isFinite_of_isInf hd)
    refine ⟨t, ht, hok, fun k => ?_⟩
    obtain ⟨bits, x, hk⟩ := hxf k
    rw [hk]
    exact storeFloat_fdiv_isInf bits x hd

/-- Settles O36: by the kind of the coordinate, and the floor by the size of its exponent. -/
theorem texelIndexIsTheClampedFloor : Obligations.TexelIndexIsTheClampedFloor := by
  refine ⟨fun r nanIndex n t hn hnan => ⟨texIdx_lt r nanIndex t hn, fun h => ?_, ?_, ?_, fun h => ?_⟩,
    fun t ht => ffloor_eq_div ht⟩
  · rw [texIdx_isNaN _ _ _ h]
    omega
  · exact texIdx_isInf r nanIndex n (by decide)
  · exact texIdx_isInf r nanIndex n (by decide)
  · rw [texIdx_isFinite _ _ _ h, clampIndex_eq]

/-- Settles O37: by induction on the row. -/
theorem bitmapRowStepsItsCoordinates : Obligations.BitmapRowStepsItsCoordinates := by
  rintro s r x y n i fx fy u v hs hi rfl rfl rfl rfl rfl
  refine ⟨length_shadeRow s x y n, ?_⟩
  rw [shadeRow_bitmap hs]
  exact shadeBitmapFrom_getElem? s hi _ _

/-- Settles O38: every coordinate of the row is a pixel centre, whose floor is the pixel's number. -/
theorem identityMappingSamplesMatchingTexels : Obligations.IdentityMappingSamplesMatchingTexels := by
  intro s x y n i hs hnum ha hb hc hd he hf hw hh _ _ hx hy hi
  have harith : arith s = binary32Record := congrArg numericsOf hnum
  have hfx := hasHalves_centre (x := x) (by omega)
  have hfy := hasHalves_centre (x := y) (by omega)
  have h1a : HasHalves s.xf.a 2 := ha ▸ hasHalves_one
  have h1e : HasHalves s.xf.e 2 := he ▸ hasHalves_one
  have hstep := hasHalves_zero hd
  have hu := (hasHalves_startCoord h1a (hasHalves_zero hb) (hasHalves_zero (.inl hc)) hfx hfy
    (z := 2 * x + 1) (by omega) ⟨_, rfl⟩ (by omega)).iterate_fadd h1a i (by omega)
  have hv := (hasHalves_startCoord hstep h1e (hasHalves_zero (.inl hf)) hfx hfy
    (z := 2 * y + 1) (by omega) (by omega) (by omega)).iterate_fadd hstep i (by omega)
  rw [shadeRow_bitmap hs, shadeBitmap, shadeBitmapFrom_getElem? s hi, sampleTexel, harith,
    binary32Record_fadd, texIdx_of_hasHalves hu _ hw, texIdx_of_hasHalves hv _ hh, pixelIndex,
    show (2 * x + 1 + i * 2) / 2 = x + i by omega, show (2 * y + 1 + i * 0) / 2 = y by omega]

/-- Settles O31: `SET_CONTEXT` in colour mode, and `SETCTX` outside the fault state. -/
theorem setctxColourModeSucceeds : Obligations.SetctxColourModeSucceeds := by
  intro s hs
  refine ⟨setContext_colour hs, fun he => ?_⟩
  rw [exec_setctx_of_known he (by omega), setContext_colour hs]
  rfl

/-- Settles O32: the configuration error of an unknown mode. -/
theorem setctxUnknownModeRaisesECfg : Obligations.SetctxUnknownModeRaisesECfg :=
  fun _ he hs => exec_setctx_of_unknown he hs

/-- Settles O35: a row in colour mode is a list of copies. -/
theorem colourRowRepeatsTheColour : Obligations.ColourRowRepeatsTheColour := by
  intro s x y n hs
  refine ⟨length_shadeRow s x y n, fun i hi => ?_⟩
  rw [shadeRow, if_pos hs, List.getElem?_replicate_of_lt hi]

end Sys2Proof.Machine
end

section
/-! The arithmetic of the rasterizer (R144 to R162): what `FIX` rounds to, the bounds as the integers inside,
edge values by the cross product of R152, and which sample points a directed edge and a triangle own. -/

namespace Sys2Proof.Machine

/-! ### Conversion of a coordinate -/

/-- Rounding to even has one answer: an integer within half a unit of `M / P`, and even where it is half a
unit away, is the rounded one. -/
theorem IsRne.eq_iff {N P M : Nat} (h : IsRne N P M) (hP : 0 < P) (z : Int) :
    2 * |z * P - M| ≤ P ∧ (2 * |z * P - M| = P → z % 2 = 0) ↔ z = N := by
  obtain ⟨hlow, hhigh, htie⟩ := h
  have hN : 2 * |(N : Int) * P - M| ≤ P := by
    rcases abs_cases ((N : Int) * P - M) with ⟨habs, _⟩ | ⟨habs, _⟩ <;> zify at hlow hhigh <;> linarith
  have hNeven : 2 * |(N : Int) * P - M| = P → (N : Int) % 2 = 0 := fun hhalf => by
    have : N % 2 = 0 := htie <| by
      rcases abs_cases ((N : Int) * P - M) with ⟨habs, _⟩ | ⟨habs, _⟩
      · exact .inl (by zify; linarith)
      · exact .inr (by zify; linarith)
    omega
  refine ⟨fun ⟨hz, hzeven⟩ => ?_, by rintro rfl; exact ⟨hN, hNeven⟩⟩
  have hP : (0 : Int) < P := by exact_mod_cast hP
  have htri : |z - N| * P ≤ |z * P - M| + |(N : Int) * P - M| := by
    rw [← Nat.abs_cast P, ← abs_mul, sub_mul, Nat.abs_cast, abs_sub_comm ((N : Int) * P)]
    exact abs_sub_le _ _ _
  by_contra hne
  have hstep : 1 ≤ |z - N| := Int.one_le_abs (sub_ne_zero.2 hne)
  have hstepP : (P : Int) ≤ |z - N| * P := le_mul_of_one_le_left hP.le hstep
  have hz2 := hzeven (by linarith)
  have hN2 := hNeven (by linarith)
  have hstep2 : 2 ≤ |z - N| := by
    rcases abs_cases (z - N) with ⟨habs, _⟩ | ⟨habs, _⟩ <;> omega
  have : 2 * (P : Int) ≤ |z - N| * P := by gcongr
  linarith

/-- The same for a signed value. -/
theorem IsRne.eq_signed_iff {N P M : Nat} (h : IsRne N P M) (hP : 0 < P) (s : Bool) (z : Int) :
    2 * |z * P - signed s M| ≤ P ∧ (2 * |z * P - signed s M| = P → z % 2 = 0) ↔ z = signed s N := by
  have herr : |z * P - signed s M| = |signed s z * P - M| := by
    simpa [signed] using abs_error_signed s false z P M
  have hparity : z % 2 = 0 ↔ signed s z % 2 = 0 := by
    cases s <;> simp only [signed] <;> omega
  rw [herr, hparity, h.eq_iff hP]
  constructor
  · intro hz
    rw [← hz, signed_signed]
  · rintro rfl
    exact signed_signed s N

/-- The magnitude that `FIX` rounds, of a significand `m` of `2 ^ a` units (R144). -/
theorem isRne_fix (m a : Nat) : IsRne (rneShift (m * 2 ^ (a - 145)) (145 - a)) (2 ^ 145) (m * 2 ^ a) := by
  have h : IsRne (rneShift (m * 2 ^ (a - 145)) (145 - a)) _ _ :=
    IsRne.scale (rneShift_spec _ _) (Nat.two_pow_pos (min a 145))
  rwa [mul_assoc, ← pow_add, ← pow_add, show a - 145 + min a 145 = a by omega,
    show 145 - a + min a 145 = 145 by omega] at h

theorem fix_of_not_isFinite (r : VtxRound) {w : Word} (h : isFinite w = false) : fix r w = none := by
  rcases pattern_cases w with hw | hw | hw
  · rw [fix, unpack_of_isNaN hw]
  · rw [fix, unpack_of_isInf hw]
  · simp [hw] at h

/-- `FIX` of a finite pattern: its magnitude times 16, rounded, with its sign, where 32 bits hold it. -/
theorem exists_fix_halfEven {w : Word} (h : isFinite w = true) :
    ∃ s M N, unitsOf w = signed s ((M : Nat) : Int) ∧ IsRne N (2 ^ 145) M ∧
      ∀ x, fix .halfEven w = some x ↔ x = signed s N ∧ -2 ^ 31 ≤ x ∧ x ≤ 2 ^ 31 - 1 := by
  obtain ⟨m, a, hm, -, -, hu⟩ := exists_unpack_of_isFinite h
  refine ⟨_, _, _, hu, isRne_fix m a, fun x => ?_⟩
  rw [fix, hm]
  dsimp only
  rw [roundVtx, show ((a : Int) - 149 + 4).toNat = a - 145 by omega,
    show (-((a : Int) - 149 + 4)).toNat = 145 - a by omega]
  generalize signed (signBit w) _ = y
  split_ifs with hy
  · simp only [false_iff]
    omega
  · rw [Option.some_inj]
    omega

/-- Settles O42: the word's exact value is rounded to even once, and that has one answer. -/
theorem fixIsSixteenTimesRoundedToEven : Obligations.FixIsSixteenTimesRoundedToEven := by
  intro w x
  cases hfin : isFinite w with
  | false => simp [fix_of_not_isFinite _ hfin]
  | true =>
    obtain ⟨s, M, N, hu, hrne, hfix⟩ := exists_fix_halfEven hfin
    have hnear := hrne.eq_signed_iff (Nat.two_pow_pos 145) s x
    push_cast at hnear
    rw [hfix, hu, ← hnear]
    tauto

/-! ### Bounds -/

/-- The ceiling by the formula of R146. -/
theorem ceilFix_eq (v : Int) : ceilFix v = (v + 15) / 16 := asr_eq_div (v + 15) 4

theorem ceilFix_le_iff (v p : Int) : ceilFix v ≤ p ↔ v ≤ 16 * p := by
  rw [ceilFix_eq]
  omega

theorem lt_ceilFix_iff (v p : Int) : p < ceilFix v ↔ 16 * p < v := by
  rw [ceilFix_eq]
  omega

/-- The integers between the ceilings of the least and the greatest of three values (R146). -/
theorem mem_ceilFix_iff (a b c p : Int) :
    ceilFix (min (min a b) c) ≤ p ∧ p < ceilFix (max (max a b) c) ↔
      (a ≤ 16 * p ∨ b ≤ 16 * p ∨ c ≤ 16 * p) ∧ (16 * p < a ∨ 16 * p < b ∨ 16 * p < c) := by
  rw [ceilFix_le_iff, lt_ceilFix_iff, min_le_iff, min_le_iff, lt_max_iff, lt_max_iff, or_assoc, or_assoc]

/-- Settles O44: each bound is a ceiling, of the least or the greatest coordinate. -/
theorem boundsAreTheIntegersInside : Obligations.BoundsAreTheIntegersInside := fun _ p =>
  ⟨ceilFix_eq _, ceilFix_eq _, ceilFix_eq _, ceilFix_eq _, mem_ceilFix_iff _ _ _ p, mem_ceilFix_iff _ _ _ p⟩

/-! ### Accumulators -/

theorem accStepX_iterate (es : Edges) (x y : Int) (i : Nat) :
    (accStepX es)^[i] (accAt es x y) = accAt es (x + i) y := by
  induction i with
  | zero => simp
  | succ i ih => rw [Function.iterate_succ_apply', ih, accStepX_accAt, Nat.cast_succ, add_assoc]

theorem accStepY_iterate (es : Edges) (x y : Int) (j : Nat) :
    (accStepY es)^[j] (accAt es x y) = accAt es x (y + j) := by
  induction j with
  | zero => simp
  | succ j ih => rw [Function.iterate_succ_apply', ih, accStepY_accAt, Nat.cast_succ, add_assoc]

/-- Settles O45: each step moves the closed form by one pixel or one row. -/
theorem accumulatorsHoldTheClosedForm : Obligations.AccumulatorsHoldTheClosedForm := by
  intro es b i j
  rw [accStart_eq, accStepY_iterate, accStepX_iterate]
  rfl

/-! ### Edge values -/

/-- The edge function of R152 without the correction of R150: the cross product of the edge from `p` to `q`
with the way from `p` to the sample point of pixel `(x, y)`. It is negative on the inner side. -/
def crossAt (p q : Int × Int) (x y : Int) : Int :=
  (p.2 - q.2) * (p.1 - 16 * x) - (p.1 - q.1) * (p.2 - 16 * y)

/-- The edge from corner `p` to corner `q`. -/
def edgeFrom (p q : Int × Int) : Edge := mkEdge p.1 p.2 q.1 q.2

/-- The edge from `p` to `q` owns the sample points on it (R150). -/
def owns (p q : Int × Int) : Bool := ownsEdge (p.1 - q.1) (p.2 - q.2)

theorem owns_iff (p q : Int × Int) : owns p q = true ↔ q.2 < p.2 ∨ (p.2 = q.2 ∧ p.1 < q.1) := by
  simp [owns, ownsEdge, sub_eq_zero]

/-- The edge value is the cross product, less 1 where the edge owns its points (R149, R150, R152). -/
theorem edgeValue_edgeFrom (p q : Int × Int) (x y : Int) :
    edgeValue (edgeFrom p q) x y = crossAt p q x y - if owns p q then 1 else 0 := by
  unfold edgeValue edgeFrom mkEdge crossAt owns
  dsimp only
  split <;> ring

/-- A sample point is inside an edge when it lies on the inner side, or on the edge and the edge owns it. -/
theorem edgeValue_neg_iff (p q : Int × Int) (x y : Int) :
    edgeValue (edgeFrom p q) x y < 0 ↔
      crossAt p q x y < 0 ∨ (crossAt p q x y = 0 ∧ owns p q = true) := by
  rw [edgeValue_edgeFrom]
  cases owns p q
  · simp
  · simp only [if_true, and_true]
    omega

/-- A product of bounded factors is bounded. -/
theorem abs_mul_le_of_abs_le {a b A B : Int} (ha : |a| ≤ A) (hb : |b| ≤ B) : |a * b| ≤ A * B := by
  rw [abs_mul]
  exact mul_le_mul ha hb (abs_nonneg b) ((abs_nonneg a).trans ha)

/-- Settles O46: two products of a 33-bit difference and a sum below 2^32, and the correction. -/
theorem edgeValuesFitSixtySixBits : Obligations.EdgeValuesFitSixtySixBits := by
  intro xi yi xj yj x y hxi hxi' hyi hyi' hxj hxj' hyj hyj' hx hx' hy hy'
  have hX : |(yi - yj) * (xi - 16 * x)| ≤ (2 ^ 32 - 1) * 2 ^ 32 :=
    abs_mul_le_of_abs_le (abs_le.2 (by omega)) (abs_le.2 (by omega))
  have hY : |(xi - xj) * (yi - 16 * y)| ≤ (2 ^ 32 - 1) * 2 ^ 32 :=
    abs_mul_le_of_abs_le (abs_le.2 (by omega)) (abs_le.2 (by omega))
  have hvalue : edgeValue (mkEdge xi yi xj yj) x y =
      (yi - yj) * (xi - 16 * x) - (xi - xj) * (yi - 16 * y) - if owns (xi, yi) (xj, yj) then 1 else 0 :=
    edgeValue_edgeFrom (xi, yi) (xj, yj) x y
  obtain ⟨hXlow, hXhigh⟩ := abs_le.1 hX
  obtain ⟨hYlow, hYhigh⟩ := abs_le.1 hY
  rw [hvalue]
  split <;> omega

/-! ### Shared edges -/

/-- Turning an edge round turns the sign of its cross product. -/
theorem crossAt_swap (p q : Int × Int) (x y : Int) : crossAt q p x y = -crossAt p q x y := by
  unfold crossAt
  ring

/-- Of an edge between different points exactly one direction owns its points (R150, R162). -/
theorem owns_swap {p q : Int × Int} (h : p.1 ≠ q.1 ∨ p.2 ≠ q.2) : owns q p = !owns p q := by
  rw [Bool.eq_iff_iff, Bool.not_eq_true', ← Bool.not_eq_true, owns_iff, owns_iff]
  omega

/-- An edge from a point to itself has no sample point inside. -/
theorem edgeValue_edgeFrom_self (p : Int × Int) (x y : Int) : edgeValue (edgeFrom p p) x y = 0 := by
  simp [edgeValue_edgeFrom, crossAt, owns, ownsEdge]

/-- Of the two directions of an edge between different points exactly one has a sample point inside (R162). -/
theorem edgeValue_neg_iff_swap {p q : Int × Int} (h : p.1 ≠ q.1 ∨ p.2 ≠ q.2) (x y : Int) :
    edgeValue (edgeFrom p q) x y < 0 ↔ ¬ edgeValue (edgeFrom q p) x y < 0 := by
  rw [edgeValue_neg_iff, edgeValue_neg_iff, crossAt_swap, owns_swap h]
  cases owns p q
  · simp only [Bool.not_false, Bool.false_eq_true, and_false, and_true, or_false]
    omega
  · simp only [Bool.not_true, Bool.false_eq_true, and_false, and_true, or_false]
    omega

/-- No sample point is inside both directions of an edge. -/
theorem not_edgeValue_neg_both (p q : Int × Int) (x y : Int) :
    ¬ (edgeValue (edgeFrom p q) x y < 0 ∧ edgeValue (edgeFrom q p) x y < 0) := by
  rintro ⟨hpq, hqp⟩
  by_cases hne : p = q
  · rw [hne, edgeValue_edgeFrom_self] at hpq
    exact lt_irrefl 0 hpq
  · have h : p.1 ≠ q.1 ∨ p.2 ≠ q.2 := by
      by_contra heq
      exact hne (Prod.ext (by omega) (by omega))
    exact (edgeValue_neg_iff_swap h x y).1 hpq hqp

/-- A sample point is covered when it is inside the edge from every corner to the next (R145, R158). -/
theorem insideEdges_iff (t : Fixed) (x y : Int) :
    insideEdges (mkEdges t) x y ↔
      ∀ k : Fin 3, edgeValue (edgeFrom (corner t k) (corner t (k + 1))) x y < 0 := by
  simp only [Fin.forall_fin_succ, IsEmpty.forall_iff, and_true]
  rfl

/-- Settles O47: the directions of a shared edge exclude each other, and the triangles are inside one each. -/
theorem sharedEdgeIsOwnedOnce : Obligations.SharedEdgeIsOwnedOnce := by
  refine ⟨fun xi yi xj yj x y h => edgeValue_neg_iff_swap (p := (xi, yi)) (q := (xj, yj)) h x y, ?_⟩
  rintro t u i j hi hj x y ⟨ht, hu⟩
  have hti := (insideEdges_iff t x y).1 ht i
  have huj := (insideEdges_iff u x y).1 hu j
  rw [hi, hj] at hti
  exact not_edgeValue_neg_both _ _ x y ⟨hti, huj⟩

/-! ### Signed area -/

/-- The cross products of the three edges add up to the area with its sign turned, at every sample point. -/
theorem crossAt_sum (t : Fixed) (x y : Int) :
    crossAt (corner t 0) (corner t 1) x y + crossAt (corner t 1) (corner t 2) x y +
      crossAt (corner t 2) (corner t 0) x y = -signedArea t := by
  unfold crossAt corner signedArea
  ring

/-- Edges that lead back to where they began do not all own their points: one leads down, or they are all
level and one leads to the left. -/
theorem not_owns_cycle (p q r : Int × Int) : ¬ (owns p q = true ∧ owns q r = true ∧ owns r p = true) := by
  rw [owns_iff, owns_iff, owns_iff]
  omega

/-- A triangle whose signed area is not positive covers no sample point (R160, R161). -/
theorem not_insideEdges_of_signedArea_nonpos {t : Fixed} (h : signedArea t ≤ 0) (x y : Int) :
    ¬ insideEdges (mkEdges t) x y := by
  rw [insideEdges_iff]
  intro hin
  have h0 := (edgeValue_neg_iff _ _ x y).1 (hin 0)
  have h1 := (edgeValue_neg_iff _ _ x y).1 (hin 1)
  have h2 := (edgeValue_neg_iff _ _ x y).1 (hin 2)
  have hsum := crossAt_sum t x y
  simp only [Fin.isValue, zero_add, Fin.reduceAdd] at h0 h1 h2
  have hzero : crossAt (corner t 0) (corner t 1) x y = 0 ∧ crossAt (corner t 1) (corner t 2) x y = 0 ∧
      crossAt (corner t 2) (corner t 0) x y = 0 := by omega
  obtain ⟨hz0, hz1, hz2⟩ := hzero
  exact not_owns_cycle _ _ _ ⟨(h0.resolve_left hz0.not_lt).2, (h1.resolve_left hz1.not_lt).2,
    (h2.resolve_left hz2.not_lt).2⟩

end Sys2Proof.Machine
end

section
/-! The command `DRAWTRI` (R140 to R166): which check ends it, when it is skipped, and the net effect of the
triangle it draws. -/

namespace Sys2Proof.Machine

/-! ### Configuration -/

section NoFault
variable {s : State} (he : s.err = 0)
include he

/-- Outside the fault state a failed check ends the command with its number (R142). -/
theorem exec_drawtri_of_configCheck_some {n : Nat} (hc : configCheck s = some n) :
    exec .drawtri s = .next { s with err := 2, errinfo := BitVec.ofNat 32 n } := by
  change execDrawtri s = _
  rcases execDrawtri_cases s with ⟨hf, _⟩ | ⟨_, m, hm, h⟩ | ⟨_, hnone, _⟩
  · simp [inFault, he] at hf
  · cases hc.symm.trans hm
    exact h
  · cases hc.symm.trans hnone

/-- Outside the fault state a configuration that passes its checks leads to `SET_CONTEXT` (R140). -/
theorem exec_drawtri_of_configCheck_none (hc : configCheck s = none) :
    exec .drawtri s = .next (drawAfterContext (setContext s)) := by
  change execDrawtri s = _
  rcases execDrawtri_cases s with ⟨hf, _⟩ | ⟨_, m, hm, _⟩ | ⟨_, _, h⟩
  · simp [inFault, he] at hf
  · cases hc.symm.trans hm
  · exact h

end NoFault

/-- A configuration that meets all six conditions passes the checks (R142). -/
theorem configCheck_of_configured {s : State} (h : configured s) : configCheck s = none := by
  obtain ⟨hshader, hw, hh, hfit, htex⟩ := h
  rw [configCheck, Config.maxDim, if_neg (by omega), if_neg (by omega), if_neg (by omega)]
  by_cases hmode : s.shader.toNat = 1
  · obtain ⟨htw, hth, htw', hth', htfit⟩ := htex hmode
    rw [if_neg (by omega), if_neg (by omega), if_neg (by omega), if_neg (by omega)]
  · rw [if_pos hmode]

/-- Settles O48: each failing check is reached when the ones before it pass. -/
theorem drawConfigurationErrors : Obligations.DrawConfigurationErrors := by
  intro s he
  refine ⟨fun hc => exec_drawtri_of_configCheck_none he (configCheck_of_configured hc),
    fun h1 => exec_drawtri_of_configCheck_some he (n := 1) ?_,
    fun h1 => ⟨fun h2 => exec_drawtri_of_configCheck_some he (n := 2) ?_,
      fun hw hh => ⟨fun h3 => exec_drawtri_of_configCheck_some he (n := 3) ?_,
        fun h3 hmode => ⟨fun h4 => exec_drawtri_of_configCheck_some he (n := 4) ?_,
          fun htw hth => ⟨fun h5 => exec_drawtri_of_configCheck_some he (n := 5) ?_,
            fun htw' hth' h6 => exec_drawtri_of_configCheck_some he (n := 6) ?_⟩⟩⟩⟩⟩
  all_goals rw [configCheck, Config.maxDim]
  · rw [if_pos h1]
  · rw [if_neg (by omega), if_pos h2]
  · rw [if_neg (by omega), if_neg (by omega), if_pos h3]
  all_goals rw [if_neg (by omega), if_neg (by omega), if_neg (by omega), if_neg (by omega)]
  · rw [if_pos h4]
  · rw [if_neg (by omega), if_pos h5]
  · rw [if_neg (by omega), if_neg (by omega), if_pos h6]

/-! ### After the context -/

@[simp] theorem setContext_vtx (s : State) : (setContext s).vtx = s.vtx := by
  rw [setContext_frame]

/-- `SET_CONTEXT` changes neither the canvas nor, with it, the bounds of a triangle (R147). -/
@[simp] theorem boundsOn_setContext (s : State) (t : Fixed) : boundsOn (setContext s) t = boundsOn s t := by
  rw [boundsOn, boundsOn, setContext_fbW, setContext_fbH]

@[simp] theorem drawnPixel_setContext (s : State) (t : Fixed) (x y : Nat) :
    drawnPixel (setContext s) t x y ↔ drawnPixel s t x y := by
  rw [drawnPixel, drawnPixel, boundsOn_setContext]

@[simp] theorem readByte_setContext (s : State) (a : Nat) :
    readByte (setContext s) .dm a = readByte s .dm a :=
  readByte_congr (setContext_powerOns s) (congrArg (byteAt? · a) (setContext_dm s))

@[simp] theorem readWord_setContext (s : State) (i : Nat) :
    readWord (setContext s) .dm i = readWord s .dm i :=
  readWord_of_memOf_eq (sp := .dm) (setContext_powerOns s) (setContext_dm s) i

/-- `SET_CONTEXT` writes no register but `STATUS` and `XF` (R117). -/
theorem readReg_setContext_of_ne (s : State) {r : Reg} (hstatus : r ≠ .status) (hxf : ∀ k, r ≠ .xf k) :
    readReg (setContext s) r = readReg s r := by
  rw [setContext_frame]
  cases r with
  | status => exact absurd rfl hstatus
  | xf k => exact absurd rfl (hxf k)
  | _ => rfl

/-- A transform that is not usable is a singular one: `SET_CONTEXT` does nothing but clear `CTX_OK` (R120). -/
theorem setContext_of_not_usable {s : State} (h : ¬ usable s) : setContext s = { s with ctxOk := false } := by
  rw [usable] at h
  rcases setContext_cases s with ⟨_, hs⟩ | ⟨_, _, hs⟩ | ⟨_, _, hs⟩
  · simp [hs] at h
  · exact hs
  · simp [hs] at h

/-- The six coordinate registers in the order in which they are converted (R143). -/
def coordinates (v : Vertices) : List Word := [v.x1, v.y1, v.x2, v.y2, v.x3, v.y3]

section FirstBad
variable {r : VtxRound} {v : Vertices} {k : Nat} {w : Word} (hk : (coordinates v)[k]? = some w)
  (hw : fix r w = none)
  (hfirst : ∀ j q, j < k → (coordinates v)[j]? = some q → fix r q ≠ none)
include hk hw hfirst

/-- A conversion at or before the first that fails: it is that one, or it succeeds and the next ones decide. -/
theorem fixAt_bind_of_first_none {α : Type} {j : Nat} {q : Word} {f : Int → Except Nat α}
    (hq : (coordinates v)[j]? = some q) (hj : j ≤ k) (hf : j ≠ k → ∀ x, f x = .error k) :
    (fixAt r j q >>= f) = .error k := by
  by_cases hjk : j = k
  · subst hjk
    cases hq.symm.trans hk
    rw [fixAt, hw]
    rfl
  · obtain ⟨x, hx⟩ := Option.ne_none_iff_exists'.1 (hfirst j q (by omega) hq)
    rw [fixAt, hx]
    exact hf hjk x

/-- The first coordinate that cannot be converted ends the conversions with its position (R143). -/
theorem fixVertices_of_first_none : fixVertices r v = .error k := by
  have step {α : Type} {j : Nat} {q : Word} {f : Int → Except Nat α} :=
    fixAt_bind_of_first_none (j := j) (q := q) (f := f) hk hw hfirst
  refine step rfl (Nat.zero_le k) fun _ _ => step rfl (by omega) fun _ _ => step rfl (by omega) fun _ _ =>
    step rfl (by omega) fun _ _ => step rfl (by omega) fun _ _ => step rfl (by omega) fun _ _ => ?_
  have hlast : k < (coordinates v).length := (List.getElem?_eq_some_iff.1 hk).1
  simp only [coordinates, List.length_cons, List.length_nil] at hlast
  omega

end FirstBad

section Configured
variable {s : State} (he : s.err = 0) (hc : configured s)
include he hc

/-- With `CTX_OK` clear the vertices are not looked at (R141). -/
theorem exec_drawtri_of_not_usable (hu : ¬ usable s) :
    exec .drawtri s = .next { s with ctxOk := false } := by
  rw [exec_drawtri_of_configCheck_none he (configCheck_of_configured hc), setContext_of_not_usable hu,
    drawAfterContext]
  rfl

/-- A coordinate that cannot be converted ends the draw with `E_VTX` (R143). -/
theorem exec_drawtri_of_fixVertices_error (hu : usable s) {k : Nat}
    (hk : fixVertices s.params.vtxRound s.vtx = .error k) :
    exec .drawtri s = .next { setContext s with err := 3, errinfo := BitVec.ofNat 32 k } := by
  have hok : (setContext s).ctxOk = true := hu
  rw [exec_drawtri_of_configCheck_none he (configCheck_of_configured hc), drawAfterContext, if_pos hok,
    setContext_params, setContext_vtx, hk]
  rfl

/-- With converted coordinates the draw draws its triangle (R145). -/
theorem exec_drawtri_of_fixVertices_ok (hu : usable s) {t : Fixed}
    (ht : fixVertices s.params.vtxRound s.vtx = .ok t) :
    exec .drawtri s = .next (drawTriangle t (setContext s)) := by
  have hok : (setContext s).ctxOk = true := hu
  rw [exec_drawtri_of_configCheck_none he (configCheck_of_configured hc), drawAfterContext, if_pos hok,
    setContext_params, setContext_vtx, ht]

end Configured

/-- Settles O49: the context is singular, and the draw ends there. -/
theorem singularTransformSkipsTheDraw : Obligations.SingularTransformSkipsTheDraw :=
  fun _ he hc hu => exec_drawtri_of_not_usable he hc hu

/-- Settles O50: the conversions end at the first that fails. -/
theorem firstBadVertexRaisesEVtx : Obligations.FirstBadVertexRaisesEVtx :=
  fun s _ _ he hc hu hk hw hfirst =>
    ⟨_, exec_drawtri_of_fixVertices_error he hc hu (fixVertices_of_first_none hk hw hfirst), rfl,
      setContext_dm s, setContext_tm s⟩

/-! ### The triangle -/

theorem drawTriangle_of_empty {t : Fixed} {s : State}
    (h : (boundsOn s t).xmax ≤ (boundsOn s t).xmin ∨ (boundsOn s t).ymax ≤ (boundsOn s t).ymin) :
    drawTriangle t s = s := by
  rcases drawTriangle_cases t s with ⟨_, hs⟩ | ⟨hne, _⟩
  · exact hs
  · rw [(emptyBounds_iff _).2 h] at hne
    cases hne

/-- A triangle with a row and a column left counts one draw of free values and changes DM, and nothing
else. -/
theorem drawTriangle_of_not_empty {t : Fixed} {s : State} (hx : (boundsOn s t).xmin < (boundsOn s t).xmax)
    (hy : (boundsOn s t).ymin < (boundsOn s t).ymax) :
    drawTriangle t s = { s with dm := (drawTriangle t s).dm, freeCount := s.freeCount + 1 } := by
  rcases drawTriangle_cases t s with ⟨he, _⟩ | ⟨_, hs⟩
  · have := (emptyBounds_iff _).1 he
    omega
  · rw [hs, drawRows_frame]
    rfl

/-- Settles O51: the triangle is skipped. -/
theorem emptyBoundsDrawNothing : Obligations.EmptyBoundsDrawNothing := by
  intro s t he hc hu ht hempty
  refine ⟨?_, setContext_dm s, setContext_tm s, (setContext_err s).trans he⟩
  rw [exec_drawtri_of_fixVertices_ok he hc hu ht, drawTriangle_of_empty (by simpa using hempty)]

/-- A triangle that covers no sample point leaves DM alone (R159). -/
theorem readByte_drawTriangle_of_not_inside {t : Fixed} {s : State}
    (h : ∀ x y : Int, ¬ insideEdges (mkEdges t) x y) (a : Nat) :
    readByte (drawTriangle t s) .dm a = readByte s .dm a := by
  refine readByte_congr (drawTriangle_powerOns t s) (byteAt?_drawTriangle_of_not_drawn ?_)
  rintro x y ⟨_, _, _, _, hin⟩
  exact absurd hin (h x y)

/-- A draw leaves DM alone, or it draws the triangle that the vertices convert to. -/
theorem execDrawtri_dm_of_fixVertices {s u : State} {t : Fixed} (h : execDrawtri s = .next u)
    (ht : fixVertices s.params.vtxRound s.vtx = .ok t) :
    u.dm = s.dm ∨ u = drawTriangle t (setContext s) := by
  rcases execDrawtri_cases s with ⟨_, hs⟩ | ⟨_, n, _, hs⟩ | ⟨_, _, hs⟩ <;> cases h.symm.trans hs
  · exact .inl rfl
  · exact .inl rfl
  · rcases drawAfterContext_cases (setContext s) with ⟨_, h⟩ | ⟨_, k, _, h⟩ | ⟨_, t', ht', h⟩ <;> rw [h]
    · exact .inl (setContext_dm s)
    · exact .inl (setContext_dm s)
    · rw [setContext_params, setContext_vtx, ht] at ht'
      cases ht'
      exact .inr rfl

/-- Settles O55: the three cross products of a covered point would add up to a positive area. -/
theorem nonPositiveAreaDrawsNothing : Obligations.NonPositiveAreaDrawsNothing := by
  refine ⟨fun t h => not_insideEdges_of_signedArea_nonpos h, fun s t ht h => ?_⟩
  obtain ⟨u, hu, _⟩ := exec_completesWithParams .drawtri s
  have he : DrawEffect s u := execDrawtri_effect hu
  obtain ⟨_, _, hpow, _⟩ := he.frame
  refine ⟨u, hu, fun a => ?_⟩
  rcases execDrawtri_dm_of_fixVertices hu ht with hsame | rfl
  · exact readByte_congr hpow (congrArg (byteAt? · a) hsame)
  · rw [readByte_drawTriangle_of_not_inside (not_insideEdges_of_signedArea_nonpos h), readByte_setContext]

/-! ### The net effect -/

@[simp] theorem drawTriangle_ctxOk (t : Fixed) (s : State) : (drawTriangle t s).ctxOk = s.ctxOk := by
  rw [drawTriangle_frame]

@[simp] theorem drawTriangle_xf (t : Fixed) (s : State) : (drawTriangle t s).xf = s.xf := by
  rw [drawTriangle_frame]

section Drawn
variable {s : State} {t : Fixed} {x y : Nat} (hd : drawnPixel s t x y)
include hd

/-- After `SET_CONTEXT` a drawn pixel becomes the blend of its shaded pixel over the word it held (R159). -/
theorem readWord_draw_of_drawn {p : Word}
    (hp : (shadeRow (setContext s) (boundsOn s t).xmin.toNat y
      ((boundsOn s t).xmax - (boundsOn s t).xmin).toNat)[x - (boundsOn s t).xmin.toNat]? = some p) :
    readWord (drawTriangle t (setContext s)) .dm (x + y * s.fbW.toNat) =
      blendAt (setContext s).freeCount (x + y * s.fbW.toNat) p
        (readWord s .dm (x + y * s.fbW.toNat)) := by
  have h := readWord_drawTriangle_of_drawn (s := setContext s) (p := p) ((drawnPixel_setContext s t x y).2 hd)
    (by rwa [boundsOn_setContext])
  rwa [readWord_setContext, setContext_fbW] at h

/-- In colour mode the shaded pixel is `COLOR`, and `SET_CONTEXT` draws no free value (R118, R124). -/
theorem readWord_draw_colour (hs : s.shader.toNat = 0) :
    readWord (drawTriangle t (setContext s)) .dm (x + y * s.fbW.toNat) =
      blendAt s.freeCount (x + y * s.fbW.toNat) s.color (readWord s .dm (x + y * s.fbW.toNat)) := by
  have ⟨hx, hxm, _⟩ := hd
  obtain ⟨hx0, _⟩ := boundsOn_range s t
  obtain ⟨_, hcolour⟩ := colourRowRepeatsTheColour (setContext s) (boundsOn s t).xmin.toNat y
    ((boundsOn s t).xmax - (boundsOn s t).xmin).toNat (by rwa [setContext_shader])
  have h := readWord_draw_of_drawn hd (hcolour (x - (boundsOn s t).xmin.toNat) (by omega))
  have hfree : (setContext s).freeCount = s.freeCount := by rw [setContext_colour hs, setCtxOk_freeCount]
  rwa [hfree, setContext_color] at h

end Drawn

/-- After `SET_CONTEXT` a triangle leaves every byte alone that belongs to no drawn pixel (R159). -/
theorem readByte_draw_of_not_drawn {s : State} {t : Fixed} {a : Nat}
    (h : ∀ x y, drawnPixel s t x y → a / 4 ≠ x + y * s.fbW.toNat) :
    readByte (drawTriangle t (setContext s)) .dm a = readByte s .dm a := by
  rw [← readByte_setContext s]
  refine readByte_congr (drawTriangle_powerOns t _) (byteAt?_drawTriangle_of_not_drawn fun x y hd => ?_)
  rw [setContext_fbW]
  exact h x y ((drawnPixel_setContext s t x y).1 hd)

/-- Settles O52: the state is that of `SET_CONTEXT` with the triangle drawn in DM. -/
theorem drawNetEffect : Obligations.DrawNetEffect := by
  intro s t he hc hu ht hx hy
  refine ⟨_, exec_drawtri_of_fixVertices_ok he hc hu ht,
    drawTriangle_of_not_empty (by rwa [boundsOn_setContext]) (by rwa [boundsOn_setContext]), ?_,
    fun x y p hd hp => readWord_draw_of_drawn hd hp, fun hs => ⟨?_, fun x y hd => readWord_draw_colour hd hs⟩,
    fun a ha => readByte_draw_of_not_drawn ha⟩
  · have hok : (setContext s).ctxOk = true := hu
    refine ⟨by simp, by simpa, by simpa, by simp, by simp, by simp, by simp, fun r hstatus hxf => ?_⟩
    rw [readReg_drawTriangle, readReg_setContext_of_ne s hstatus hxf]
  · rw [drawTriangle_xf, setContext_colour hs, setCtxOk_xf]

end Sys2Proof.Machine
end

section
/-! Control (43_control.md): the commands `NOP` and `RESET` (R170, R171), register reads (R175), refused
transactions (R178), and that every transaction completes (R180). -/

namespace Sys2Proof.Machine

/-! ### Commands -/

/-- `NOP` answers the state as it is (R170). -/
theorem exec_nop (s : State) : exec .nop s = .next s := rfl

/-- `RESET` answers the state with its registers reset, in the fault state too (R171, R221). -/
theorem exec_reset (s : State) : exec .reset s = .next (resetRegisters s) := rfl

/-! ### Register reads -/

/-- A read at a register's offset gives the register's word (R175). -/
theorem regRd_offset (r : Reg) (s : State) : regRd r.offset s = readReg s r := by
  simp only [regRd, ofOffset_offset]

/-- A read of `CMD` gives 0: it stores nothing (R35, R175). -/
theorem regRd_zero (s : State) : regRd 0 s = 0 := regRd_offset .cmd s

/-- A read at a reserved offset gives 0 (R74, R175). -/
theorem regRd_of_reserved {off : Nat} (s : State) (h : ∀ r : Reg, r.offset ≠ off) : regRd off s = 0 := by
  have hnone : Reg.ofOffset off = none := (ofOffset_eq_none_iff off).mpr (by simpa using h)
  simp only [regRd, hnone]

/-- A step that takes a read of a register offset records the word, and changes nothing else (R175). -/
theorem step_read_reg (s : State) (rest : List HostEvent) (off : Nat) (hp : s.params.wf = true)
    (hoff : Target.wf s.params (.reg off) = true)
    (h : s.pending = .read (busAddress s.params (.reg off)) 32 :: rest) :
    step s = .next (afterEvent s rest (.data (regRd off s))) := by
  have hvalue : busReadValue (busAddress s.params (.reg off)) 32 s = .data (regRd off s) := by
    simp only [busReadValue, locate_busAddress_reg s.params off hp hoff]
  rw [step_read s rest _ _ h, hvalue]
  rfl

/-! ### Refused transactions -/

/-- What the bus refuses: another width, another alignment, or an address in none of the three apertures
(R56, R71). -/
theorem locate_eq_none_iff (p : Params) (addr width : Nat) :
    locate p addr width = none ↔ width ≠ 32 ∨ addr % 4 ≠ 0 ∨
      ((addr < p.regBase ∨ p.regBase + 256 ≤ addr) ∧
       (addr < p.dmBase ∨ p.dmBase + 4 * p.dmPixels ≤ addr) ∧
       (addr < p.tmBase ∨ p.tmBase + 4 * p.tmPixels ≤ addr)) := by
  unfold locate
  split_ifs with hform hreg hdm htm
  case pos => exact iff_of_true rfl (by omega)
  case pos | pos | pos => exact iff_of_false (by simp) (by omega)
  case neg => exact iff_of_true rfl (by omega)

/-- A step that takes a refused write answers a bus error and changes nothing (R178). -/
theorem step_write_refused (s : State) (rest : List HostEvent) (addr width : Nat) (w : Word)
    (hl : locate s.params addr width = none) (h : s.pending = .write addr width w :: rest) :
    step s = .next (afterEvent s rest .busError) := by
  rcases step_write s rest addr width w h with ⟨_, hl', _⟩ | ⟨_, _, hl', _⟩ | ⟨_, hs⟩
  · cases hl.symm.trans hl'
  · cases hl.symm.trans hl'
  · exact hs

/-- A step that takes a refused read answers a bus error and changes nothing (R178). -/
theorem step_read_refused (s : State) (rest : List HostEvent) (addr width : Nat)
    (hl : locate s.params addr width = none) (h : s.pending = .read addr width :: rest) :
    step s = .next (afterEvent s rest .busError) := by
  have hvalue : busReadValue addr width s = .busError := by simp only [busReadValue, hl]
  rw [step_read s rest addr width h, hvalue]
  rfl

/-! ### The obligations about control -/

/-- Settles O7: every event and every command completes, and the empty stream is the idle step. -/
theorem everyStepCompletes : Obligations.EveryStepCompletes := by
  refine ⟨fun s => ?_, fun i s => ?_, step_idle⟩
  · obtain ⟨t, ht, _⟩ := step_completesWithParams s
    exact ⟨t, ht⟩
  · obtain ⟨t, ht, _⟩ := exec_completesWithParams i s
    exact ⟨t, ht⟩

/-- Settles O9: the state is that of a register reset, whose registers and frame are known. -/
theorem resetRestoresEveryRegister : Obligations.ResetRestoresEveryRegister := fun s =>
  ⟨resetRegisters s, exec_reset s, readReg_resetRegisters s, by simp⟩

/-- Settles O19: the read answers with what stands at the offset, and `CMD` at offset 0 reads 0. -/
theorem registerReadsReturnAndChangeNothing : Obligations.RegisterReadsReturnAndChangeNothing := by
  intro s rest off hp h hlt halign
  rw [step_read_reg s rest off hp (by simp [Target.wf, hlt, halign]) h]
  refine ⟨?_, ?_⟩
  · rintro r rfl _
    rw [regRd_offset]
  · rintro (rfl | hreserved)
    · rw [regRd_zero]
    · rw [regRd_of_reserved s hreserved]

/-- Settles O8: `NOP`'s meaning is the state itself. -/
theorem nopChangesNothing : Obligations.NopChangesNothing := exec_nop

/-- Settles O22: the address is located nowhere, so the write and the read are both refused. -/
theorem refusedTransactionsChangeNothing : Obligations.RefusedTransactionsChangeNothing := by
  intro s rest addr width hrefused
  have hl := (locate_eq_none_iff s.params addr width).mpr hrefused
  exact ⟨fun w => step_write_refused s rest addr width w hl, step_read_refused s rest addr width hl⟩

end Sys2Proof.Machine
end

section
/-! Exceptions (60_exceptions.md): what a word that is no command does (R201, R204), and what the fault state
ignores (R205). -/

namespace Sys2Proof.Machine

/-! ### Words written to `CMD` -/

/-- The fault state is `STATUS.ERR ≠ 0` (R15, R205). -/
theorem inFault_iff (s : State) : inFault s = true ↔ s.err ≠ 0 := by simp [inFault]

/-- A word decodes to no command exactly when it is none of the four of R82. -/
theorem decode_ne_ok_iff (c : Word) :
    (∀ i, decode c ≠ .ok i) ↔
      c ≠ 0x00000000 ∧ c ≠ 0x00000001 ∧ c ≠ 0x00000002 ∧ c ≠ 0x0000000F := by
  simp only [ne_eq, decode_eq_ok_iff]
  constructor
  · exact fun h => ⟨h .nop, h .setctx, h .drawtri, h .reset⟩
  · rintro ⟨hnop, hsetctx, hdrawtri, hreset⟩ i
    cases i with
    | nop => exact hnop
    | setctx => exact hsetctx
    | drawtri => exact hdrawtri
    | reset => exact hreset

/-- Outside the fault state a word that is no command raises `E_CMD` with the word (R201). -/
theorem command_of_not_decode {c : Word} {s : State} (he : s.err = 0) (hno : ∀ i, decode c ≠ .ok i) :
    command c s = .next (raise .cmd c s) := by
  rcases command_cases c s with ⟨hf, _⟩ | ⟨i, hd, _⟩ | ⟨_, _, h⟩
  · exact absurd he ((inFault_iff s).mp hf)
  · exact absurd hd (hno i)
  · exact h

/-- In the fault state every word but `RESET`'s leaves the state as it is (R205). -/
theorem command_of_inFault_ne {c : Word} {s : State} (hf : inFault s = true) (hc : c ≠ 0x0000000F) :
    command c s = .next s := by
  obtain ⟨u, hu, _⟩ := command_completesWithParams c s
  rcases command_of_inFault hf hu with rfl | hreset
  · exact hu
  · exact absurd hreset hc

/-! ### The obligations about exceptions -/

/-- Settles O11: the step is the word's write to `CMD`, and the word decodes to no command. -/
theorem illegalCommandRaisesECmd : Obligations.IllegalCommandRaisesECmd := by
  intro s rest c hp h he hnop hsetctx hdrawtri hreset
  have hno := (decode_ne_ok_iff c).mpr ⟨hnop, hsetctx, hdrawtri, hreset⟩
  rw [step_write_cmd s rest c hp h, command_of_not_decode (s := afterEvent s rest .done) he hno]
  rfl

/-- Settles O10: each meaning but `RESET`'s begins with the test for the fault state, or is `NOP`'s. -/
theorem commandsIgnoredInFaultState : Obligations.CommandsIgnoredInFaultState := fun i s herr hi =>
  exec_of_inFault i s ((inFault_iff s).mpr herr) hi

/-- Settles O12: the step is the word's write to `CMD`, which the fault state ignores. -/
theorem faultStateIgnoresCommandWords : Obligations.FaultStateIgnoresCommandWords := by
  intro s rest c hp h herr hc
  have hf : inFault (afterEvent s rest .done) = true := (inFault_iff _).mpr herr
  rw [step_write_cmd s rest c hp h, command_of_inFault_ne hf hc]

end Sys2Proof.Machine
end

section
/-! The words that `FIX` accepts (R226): the value of a pattern grows with its lower 31 bits, rounding keeps
the order, and so `FIX` accepts with a word every lower word of its sign. -/

namespace Sys2Proof.Machine

/-! ### The order of values -/

/-- The units of 2^−149 in a finite pattern with the lower 31 bits `mag` (R87). -/
def magUnits (mag : Nat) : Nat :=
  if mag < 2 ^ 23 then mag else (2 ^ 23 + mag % 2 ^ 23) * 2 ^ (mag / 2 ^ 23 - 1)

theorem unitsOf_eq_signed_magUnits {w : Word} (h : isFinite w = true) :
    unitsOf w = signed (signBit w) (magUnits (w.toNat % 2 ^ 31)) := by
  have he : w.toNat % 2 ^ 31 / 2 ^ 23 = expField w := by unfold expField; omega
  have hf : w.toNat % 2 ^ 31 % 2 ^ 23 = fracField w := by unfold fracField; omega
  rw [unitsOf, unpack, if_neg ((isFinite_iff w).1 h), magUnits, he, hf]
  by_cases h0 : expField w = 0
  · have hsmall : w.toNat % 2 ^ 31 < 2 ^ 23 := by omega
    rw [if_pos h0, if_pos hsmall, ← hf, Nat.mod_eq_of_lt hsmall]
    simp
  · have hexp : ((expField w : Int) - 150 + 149).toNat = expField w - 1 := by omega
    rw [if_neg h0, if_neg (by omega)]
    simp [hexp]

/-- Each pattern is followed by one of a value not less: the next fraction, or the next power of two. -/
theorem magUnits_mono : Monotone magUnits := monotone_nat_of_le_succ fun n => by
  unfold magUnits
  rcases Nat.lt_or_ge (n + 1) (2 ^ 23) with hsub | hnormal
  · rw [if_pos hsub, if_pos (by omega)]
    exact n.le_succ
  rw [if_neg hnormal.not_gt]
  split_ifs with hlast
  · have : n + 1 = 2 ^ 23 := by omega
    rw [this]
    omega
  by_cases hcarry : n % 2 ^ 23 = 2 ^ 23 - 1
  · rw [show (n + 1) / 2 ^ 23 - 1 = n / 2 ^ 23 - 1 + 1 by omega, pow_succ' 2 (n / 2 ^ 23 - 1),
      ← mul_assoc]
    exact Nat.mul_le_mul_right _ (by omega)
  · rw [show (n + 1) / 2 ^ 23 - 1 = n / 2 ^ 23 - 1 by omega]
    exact Nat.mul_le_mul_right _ (by omega)

/-! ### The order of rounded values -/

/-- `x` is `U / P` rounded to the nearest integer, ties to the even one: `IsRne` for signed values. -/
def IsNearestEven (P U x : Int) : Prop :=
  2 * |x * P - U| ≤ P ∧ (2 * |x * P - U| = P → x % 2 = 0)

theorem exists_isNearestEven (k : Nat) (U : Int) : ∃ x, IsNearestEven (2 ^ k) U x := by
  have hrne : IsRne (rneShift U.natAbs k) (2 ^ k) U.natAbs := rneShift_spec _ _
  have h := (hrne.eq_signed_iff (Nat.two_pow_pos k) (decide (U < 0)) _).2 rfl
  rw [signed_natAbs] at h
  push_cast at h
  exact ⟨_, h⟩

theorem isNearestEven_zero {P : Int} (hP : 0 < P) : IsNearestEven P 0 0 := by
  simp [IsNearestEven, hP.le]

/-- Rounding keeps the order: else the values are equal, half way between two integers, both of them even. -/
theorem IsNearestEven.mono {P U V x y : Int} (hP : 0 < P) (hUV : U ≤ V) (hx : IsNearestEven P U x)
    (hy : IsNearestEven P V y) : x ≤ y := by
  obtain ⟨hxnear, hxeven⟩ := hx
  obtain ⟨hynear, hyeven⟩ := hy
  by_contra hlt
  have hstep : (y + 1) * P ≤ x * P := mul_le_mul_of_nonneg_right (by omega) hP.le
  have hxle := le_abs_self (x * P - U)
  have hyle := neg_abs_le (y * P - V)
  have hxeven := hxeven (by linarith)
  have hyeven := hyeven (by linarith)
  have hstep2 : (y + 2) * P ≤ x * P := mul_le_mul_of_nonneg_right (by omega) hP.le
  linarith

/-! ### Acceptance -/

/-- `FIX` accepts a finite word whose value rounds to a 32-bit integer (R144). -/
theorem isSome_fix_iff (w : Word) :
    (fix .halfEven w).isSome = true ↔ isFinite w = true ∧
      ∃ x, -2 ^ 31 ≤ x ∧ x ≤ 2 ^ 31 - 1 ∧ IsNearestEven (2 ^ 145) (unitsOf w) x := by
  rw [Option.isSome_iff_exists, ← exists_and_left]
  exact exists_congr (fixIsSixteenTimesRoundedToEven w)

/-- A finite word is accepted when its value lies between zero and an accepted word's. -/
theorem isSome_fix_of_between {v w : Word} (hv : (fix .halfEven v).isSome = true) (hw : isFinite w = true)
    (h : 0 ≤ unitsOf w ∧ unitsOf w ≤ unitsOf v ∨ unitsOf v ≤ unitsOf w ∧ unitsOf w ≤ 0) :
    (fix .halfEven w).isSome = true := by
  obtain ⟨-, y, hylow, hyhigh, hy⟩ := (isSome_fix_iff v).1 hv
  obtain ⟨x, hx⟩ := exists_isNearestEven 145 (unitsOf w)
  have hP : (0 : Int) < 2 ^ 145 := by positivity
  have hzero := isNearestEven_zero hP
  refine (isSome_fix_iff w).2 ⟨hw, x, ?_⟩
  rcases h with ⟨hlow, hhigh⟩ | ⟨hlow, hhigh⟩
  · have := hzero.mono hP hlow hx
    have := hx.mono hP hhigh hy
    exact ⟨by omega, by omega, hx⟩
  · have := hy.mono hP hlow hx
    have := hx.mono hP hhigh hzero
    exact ⟨by omega, by omega, hx⟩

/-- With a word `FIX` accepts every lower one of its sign (R226). -/
theorem isSome_fix_of_le {v w : Word} (hv : (fix .halfEven v).isSome = true)
    (hsign : 2 ^ 31 ≤ w.toNat ↔ 2 ^ 31 ≤ v.toNat) (hle : w.toNat ≤ v.toNat) :
    (fix .halfEven w).isSome = true := by
  have hvfin := ((isSome_fix_iff v).1 hv).1
  have hwfin : isFinite w = true := by
    rw [isFinite_iff, expField] at hvfin ⊢
    omega
  have hmag : magUnits (w.toNat % 2 ^ 31) ≤ magUnits (v.toNat % 2 ^ 31) := magUnits_mono (by omega)
  have hsignBit : signBit w = signBit v := decide_eq_decide.2 hsign
  refine isSome_fix_of_between hv hwfin ?_
  rw [unitsOf_eq_signed_magUnits hwfin, unitsOf_eq_signed_magUnits hvfin, hsignBit]
  cases signBit v
  · exact .inl (by simpa [signed] using hmag)
  · exact .inr (by simpa [signed] using hmag)

/-- The largest word of each sign that `FIX` accepts, and the next one, which it does not (R226). -/
theorem isSome_fix_limits :
    (fix .halfEven 0x4CFFFFFF).isSome = true ∧ ¬ (fix .halfEven 0x4D000000).isSome = true ∧
    (fix .halfEven 0xCD000000).isSome = true ∧ ¬ (fix .halfEven 0xCD000001).isSome = true := by
  decide

/-- Settles O43: acceptance goes down with the word, so for each sign it ends at one word. -/
theorem fixAcceptsExactlyTheWordsInRange : Obligations.FixAcceptsExactlyTheWordsInRange := by
  intro w
  obtain ⟨hpos, hposnext, hneg, hnegnext⟩ := isSome_fix_limits
  constructor
  · intro hw
    by_contra hout
    rcases Nat.lt_or_ge w.toNat (2 ^ 31) with hsign | hsign
    · exact hposnext (isSome_fix_of_le hw (by bv_omega) (by bv_omega))
    · exact hnegnext (isSome_fix_of_le hw (by bv_omega) (by bv_omega))
  · rintro (hle | ⟨hlow, hhigh⟩)
    · exact isSome_fix_of_le hpos (by bv_omega) (by bv_omega)
    · exact isSome_fix_of_le hneg (by bv_omega) (by bv_omega)

end Sys2Proof.Machine
end

section
/-! Power-on reset as an event (R220): what the registers and the bytes of both memories read as after it
(R44, R45), and what the event leaves of the host's side. -/

namespace Sys2Proof.Machine

/-- Power-on reset is the reset of the registers of a state that has lost its memories (R220, R221). -/
theorem powerOnReset_eq_resetRegisters (s : State) :
    powerOnReset s = resetRegisters { s with dm := [], tm := [], powerOns := s.powerOns + 1 } := rfl

/-- After power-on reset every register reads as in the reset state (R44, R220). -/
theorem readReg_powerOnReset (s : State) (r : Reg) :
    readReg (powerOnReset s) r = readReg State.reset r := by
  obtain ⟨hreset, _⟩ := resetStateHoldsResetValues
  rw [powerOnReset_eq_resetRegisters, readReg_resetRegisters, hreset]

/-- A byte of a memory in which nothing has been written reads as its power-on byte (R45). -/
theorem readByte_of_memOf_eq_nil {s : State} {sp : Space} (h : memOf s sp = []) (a : Nat) :
    readByte s sp a = powerOnByte s sp a := by
  simp only [readByte, h, byteAt?, Option.getD_none]

/-- After power-on reset nothing is written in either memory (R45). -/
theorem memOf_powerOnReset (s : State) (sp : Space) : memOf (powerOnReset s) sp = [] := by
  cases sp with
  | dm => exact powerOnReset_dm s
  | tm => exact powerOnReset_tm s

/-- After power-on reset every byte reads as the power-on byte of the new count (R45, R220). -/
theorem readByte_powerOnReset (s : State) (sp : Space) (a : Nat) :
    readByte (powerOnReset s) sp a = powerOnByte (powerOnReset s) sp a :=
  readByte_of_memOf_eq_nil (memOf_powerOnReset s sp) a

/-! ### The obligation about power-on reset -/

/-- Settles O15: the step is the power-on reset of the state with the rest of the stream, whose registers
are reset and whose memories have nothing written. -/
theorem powerOnResetsAndForgets : Obligations.PowerOnResetsAndForgets := by
  intro s rest h
  exact ⟨powerOnReset { s with pending := rest }, step_powerOn s rest h, readReg_powerOnReset _,
    readByte_powerOnReset _ .dm, readByte_powerOnReset _ .tm, by simp⟩

end Sys2Proof.Machine
end
